-- ==== Sys2Proof/Word.lean ====
section
/-! DEFINITION. The word types of the host port and of the register space (spec/00_scope.md R6, R8). -/

namespace Sys2Proof

/-- `Byte` and `U8`: 8 bits, unsigned (R6, R8). Every register is one (R24). -/
abbrev Byte := BitVec 8

/-- `U16`: 16 bits, unsigned. Only the year has this type (R8). -/
abbrev Half := BitVec 16

end Sys2Proof
end

