-- ==== Sys2Proof/Syntax.lean ====
section
/-! DEFINITION. The 32 operations of the block as syntax (spec/30_encoding.md R80, R89), with the value
types of their operands (spec/00_scope.md R8). A constructor admits every value of its operand types:
which values an operation accepts is its meaning's business (R80). -/

namespace Sys2Proof

/-- `Hour` (R8): three variants, each with an hour number of any value 0 to 255, so that an invalid hour
can be written down. -/
inductive Hour where
  | h24 (h : Byte)
  | am (h : Byte)
  | pm (h : Byte)
deriving DecidableEq, Repr

/-- `DateTime` (R8). The type admits fields outside their documented ranges. -/
structure DateTime where
  year : Half
  month : Byte
  day : Byte
  weekday : Byte
  hour : Hour
  minute : Byte
  second : Byte
deriving DecidableEq, Repr

/-- `Level` (R8): the two output levels. -/
inductive Level where
  | low
  | high
deriving DecidableEq, Repr

/-- `Rate` (R8, R187): 1 Hz, 4.096 kHz, 8.192 kHz, 32.768 kHz. -/
inductive Rate where
  | hz1
  | hz4096
  | hz8192
  | hz32768
deriving DecidableEq, Repr

/-- One operation of the block, one constructor per row of spec/opcode_table.json (R89). -/
inductive Instr where
  /-- `decode` (R110). -/
  | decodeBcd (b : Byte)
  /-- `encode` (R111). -/
  | encodeBcd (d : Byte)
  /-- `decode_hours` (R120). -/
  | decodeHours (b : Byte)
  /-- `encode_hours` (R121). -/
  | encodeHours (hour : Hour)
  /-- `get_seconds` (R132). -/
  | getSeconds
  /-- `get_minutes` (R134). -/
  | getMinutes
  /-- `get_hours` (R136). -/
  | getHours
  /-- `get_weekday` (R138). -/
  | getWeekday
  /-- `get_day` (R140). -/
  | getDay
  /-- `get_month` (R142). -/
  | getMonth
  /-- `get_year` (R144). -/
  | getYear
  /-- `get_datetime` (R160). -/
  | getDatetime
  /-- `set_seconds` (R133). -/
  | setSeconds (v : Byte)
  /-- `set_minutes` (R135). -/
  | setMinutes (v : Byte)
  /-- `set_hours` (R137). -/
  | setHours (hour : Hour)
  /-- `set_weekday` (R139). -/
  | setWeekday (v : Byte)
  /-- `set_day` (R141). -/
  | setDay (v : Byte)
  /-- `set_month` (R143). -/
  | setMonth (v : Byte)
  /-- `set_year` (R145). -/
  | setYear (v : Half)
  /-- `set_datetime` (R161). -/
  | setDatetime (dt : DateTime)
  /-- `running` (R171). -/
  | running
  /-- `set_running` (R172). -/
  | setRunning
  /-- `halt` (R173). -/
  | halt
  /-- `square_wave_output_enabled` (R180). -/
  | squareWaveOutputEnabled
  /-- `enable_square_wave_output` (R181). -/
  | enableSquareWaveOutput
  /-- `disable_square_wave_output` (R182). -/
  | disableSquareWaveOutput
  /-- `square_wave_output_level` (R183). -/
  | squareWaveOutputLevel
  /-- `set_square_wave_output_level` (R184). -/
  | setSquareWaveOutputLevel (level : Level)
  /-- `square_wave_output_rate` (R185). -/
  | squareWaveOutputRate
  /-- `set_square_wave_output_rate` (R186). -/
  | setSquareWaveOutputRate (rate : Rate)
  /-- `read_ram` (R201): `n` is the buffer's length. -/
  | readRam (offset n : Byte)
  /-- `write_ram` (R202): `d` is the buffer; the operand `n` is its length (R94, R202). -/
  | writeRam (offset : Byte) (d : List Byte)
deriving DecidableEq, Repr

end Sys2Proof
end

