-- ==== Sys2Proof/Config.lean ====
section
/-! DEFINITION. The parameters of the block (spec/00_scope.md R5, second group) and the model's free
values. An `opaque` constant here has no body: nothing can be proved about its value, so a claim that
holds of the model holds whatever the value is. -/

namespace Sys2Proof

/-- `TransportError` (R5, R212): the value a failing transaction carries. The block only passes it on.
DESIGN CHOICE (log 6): the error values are numbered. -/
structure TransportError where
  code : Nat
deriving DecidableEq, Repr

/-- `TIMEKEEPER` (R5, R64). -/
inductive Timekeeper where
  | frozen
  | free
deriving DecidableEq, Repr

/-- `WRITE_FAIL_EFFECT` (R5, R53): what a failed write leaves in the registers it addressed. -/
inductive WriteFailEffect where
  | havocAddressed
  | unchanged
deriving DecidableEq, Repr

/-- The choice of the parameter `CAL_SANE` (R5, R162): one of the two named predicates, or any other
admissible predicate, numbered (log 9). -/
inductive CalCheck where
  | range
  | gregorian
  | other (k : Nat)
deriving DecidableEq, Repr

/-- The open parameters of R5 that the model takes as an argument. They are fixed before launch (R240);
no step changes them. -/
structure Params where
  devAddr : BitVec 7
  timekeeper : Timekeeper
  writeFailEffect : WriteFailEffect
  calSane : CalCheck
deriving DecidableEq, Repr

/-- What the free timekeeper puts in the time registers before a transaction (R64): bits 6:0 of
`reg[0x00]` and all of `reg[0x01]` to `reg[0x06]`. Bit 7 of `reg[0x00]` has no place here. -/
structure Tick where
  seconds : BitVec 7
  minutes : Byte
  hours : Byte
  weekday : Byte
  day : Byte
  month : Byte
  year : Byte
deriving DecidableEq, Repr

/-- The transport's answer to one transaction (R65): success, failure with a value, or, as the last
sentence of R65 and U18 allow, no answer ever. -/
inductive Answer where
  | ok
  | fail (e : TransportError)
  | never
deriving DecidableEq, Repr

/-- The environment's part in one transaction: what the timekeeper does before it, how the transport
answers it, and the bytes that the addressed registers hold if it is a write that fails. -/
structure Turn where
  tick : Option Tick
  answer : Answer
  leftover : List Byte
deriving DecidableEq, Repr

/-- `DEV_ADDR` (R5, D7): a constant of the block that the source gives no value for (log 1). -/
opaque Config.devAddr : BitVec 7

/-- Free value: whether transaction number `k` fails, and with which error (R65, U21; log 4). -/
opaque Config.freeFailure : Nat → Option TransportError

/-- Free value: what the free timekeeper does before transaction number `k` (R64, U12; log 4, log 8). -/
opaque Config.freeTick : Nat → Option Tick

/-- Free value: byte number `i` that transaction number `k`, a failed write, leaves (R53, U5; log 7). -/
opaque Config.freeLeftover : Nat → Nat → Byte

/-- Free value: what an unnamed calendar check answers (R162, U11; log 9). -/
opaque Config.otherCalCheck : Nat → DateTime → Bool

/-- Free value: the bytes of the transport's error value in a response frame (R92; log 6). -/
opaque Config.transportErrorBytes : TransportError → List Byte

/-- The turn of transaction number `k` where the state lists none: wholly free (log 4). It answers
success or failure; R65 gives a draw no third outcome. -/
def Config.freeTurn (k : Nat) : Turn where
  tick := Config.freeTick k
  answer := match Config.freeFailure k with
    | none => .ok
    | some e => .fail e
  leftover := []

end Sys2Proof
end

