-- ==== Sys2Proof/WellFormed.lean ====
section
/-! DEFINITION. Which terms of `Instr` spell a command frame (spec/30_encoding.md R81 to R88). Every
operand type but the RAM buffer fits its frame field by its type; the buffer's length `n` is one byte
of the frame (R87). -/

namespace Sys2Proof

/-- The instruction has a command frame. -/
def Instr.wellFormed : Instr → Bool
  | .decodeBcd _ => true
  | .encodeBcd _ => true
  | .decodeHours _ => true
  | .encodeHours _ => true
  | .getSeconds => true
  | .getMinutes => true
  | .getHours => true
  | .getWeekday => true
  | .getDay => true
  | .getMonth => true
  | .getYear => true
  | .getDatetime => true
  | .setSeconds _ => true
  | .setMinutes _ => true
  | .setHours _ => true
  | .setWeekday _ => true
  | .setDay _ => true
  | .setMonth _ => true
  | .setYear _ => true
  | .setDatetime _ => true
  | .running => true
  | .setRunning => true
  | .halt => true
  | .squareWaveOutputEnabled => true
  | .enableSquareWaveOutput => true
  | .disableSquareWaveOutput => true
  | .squareWaveOutputLevel => true
  | .setSquareWaveOutputLevel _ => true
  | .squareWaveOutputRate => true
  | .setSquareWaveOutputRate _ => true
  | .readRam _ _ => true
  | .writeRam _ d => decide (d.length ≤ 255)

end Sys2Proof
end

