-- ==== Sys2Proof/Decode.lean ====
section
/-! DEFINITION. Command frames (spec/30_encoding.md R81 to R91): the decoder, total on any bytes and
refusing by name, and the encoder, written from the same tables. -/

namespace Sys2Proof

/-- Why a frame spells no operation (R90). -/
inductive DecodeError where
  /-- Byte 0 is not one of the 32 opcodes. -/
  | reservedOpcode (op : Byte)
  /-- The hour tag of format H or T is 0x03 to 0xFF. -/
  | reservedHourTag (tag : Byte)
  /-- The level code of `set_square_wave_output_level` is 0x02 to 0xFF. -/
  | reservedLevelCode (v : Byte)
  /-- The rate code of `set_square_wave_output_rate` is 0x04 to 0xFF. -/
  | reservedRateCode (v : Byte)
  /-- The frame is shorter than its format requires. -/
  | shortFrame
deriving DecidableEq, Repr

/-! ## Operand codes -/

/-- The hour tag of format H (R85): 0 H24, 1 AM, 2 PM. -/
def hourTag : Hour → Byte
  | .h24 _ => 0x00
  | .am _ => 0x01
  | .pm _ => 0x02

/-- The hour number `h` of format H (R85). -/
def hourNumber : Hour → Byte
  | .h24 h => h
  | .am h => h
  | .pm h => h

/-- The `Hour` that a tag and a number spell; none for a reserved tag (R85, R90). -/
def hourOfTag (tag h : Byte) : Option Hour :=
  match tag.toNat with
  | 0 => some (.h24 h)
  | 1 => some (.am h)
  | 2 => some (.pm h)
  | _ => none

/-- Level code (R88): 0 Low, 1 High. -/
def levelCode : Level → Byte
  | .low => 0x00
  | .high => 0x01

/-- The level a code spells; none for a reserved code (R88, R90). -/
def levelOfCode (v : Byte) : Option Level :=
  match v.toNat with
  | 0 => some .low
  | 1 => some .high
  | _ => none

/-- `rate_code` (R187), also the rate code on the host port (R88). -/
def rateCode : Rate → Byte
  | .hz1 => 0x00
  | .hz4096 => 0x01
  | .hz8192 => 0x02
  | .hz32768 => 0x03

/-- The rate a code spells on the host port; none for a reserved code (R88, R90). -/
def rateOfCode (v : Byte) : Option Rate :=
  match v.toNat with
  | 0 => some .hz1
  | 1 => some .hz4096
  | 2 => some .hz8192
  | 3 => some .hz32768
  | _ => none

/-- The 16-bit operand of its two bytes, low first: `lo + 256 * hi` (R84, R88). -/
def halfOfBytes (lo hi : Byte) : Half := BitVec.ofNat 16 (lo.toNat + 256 * hi.toNat)

/-- Bits 7:0 of a 16-bit value (R84). -/
def lowByte (v : Half) : Byte := BitVec.ofNat 8 v.toNat

/-- Bits 15:8 of a 16-bit value (R84). -/
def highByte (v : Half) : Byte := BitVec.ofNat 8 (v.toNat / 256)

/-! ## The seven formats

Each takes what the opcode makes of the operands and the bytes after the opcode, and gives the
operation with the bytes after its frame (R81, R90 last sentence). -/

/-- What decoding answers: the operation and the bytes after its frame, or why there is none. -/
abbrev Decoded := Except DecodeError (Instr × List Byte)

/-- Format Z, no operand (R82). -/
def formatZ (i : Instr) (rest : List Byte) : Decoded := .ok (i, rest)

/-- Format B, one byte (R83). -/
def formatB (mk : Byte → Instr) : List Byte → Decoded
  | v :: rest => .ok (mk v, rest)
  | [] => .error .shortFrame

/-- Format B where the byte is a level code (R83, R88). -/
def formatLevel (mk : Level → Instr) : List Byte → Decoded
  | v :: rest =>
    match levelOfCode v with
    | some level => .ok (mk level, rest)
    | none => .error (.reservedLevelCode v)
  | [] => .error .shortFrame

/-- Format B where the byte is a rate code (R83, R88). -/
def formatRate (mk : Rate → Instr) : List Byte → Decoded
  | v :: rest =>
    match rateOfCode v with
    | some rate => .ok (mk rate, rest)
    | none => .error (.reservedRateCode v)
  | [] => .error .shortFrame

/-- Format W, one 16-bit operand, low byte first (R84). -/
def formatW (mk : Half → Instr) : List Byte → Decoded
  | lo :: hi :: rest => .ok (mk (halfOfBytes lo hi), rest)
  | _ => .error .shortFrame

/-- Format H, one `Hour` (R85). -/
def formatH (mk : Hour → Instr) : List Byte → Decoded
  | tag :: h :: rest =>
    match hourOfTag tag h with
    | some hour => .ok (mk hour, rest)
    | none => .error (.reservedHourTag tag)
  | _ => .error .shortFrame

/-- Format T, one `DateTime` (R86). -/
def formatT (mk : DateTime → Instr) : List Byte → Decoded
  | lo :: hi :: month :: day :: weekday :: tag :: h :: minute :: second :: rest =>
    match hourOfTag tag h with
    | some hour =>
      .ok (mk { year := halfOfBytes lo hi, month, day, weekday, hour, minute, second }, rest)
    | none => .error (.reservedHourTag tag)
  | _ => .error .shortFrame

/-- Format R, offset and length (R87). -/
def formatR (mk : Byte → Byte → Instr) : List Byte → Decoded
  | offset :: n :: rest => .ok (mk offset n, rest)
  | _ => .error .shortFrame

/-- Format M, offset, length `n` and `n` data bytes (R87, R91). -/
def formatM (mk : Byte → List Byte → Instr) : List Byte → Decoded
  | offset :: n :: rest =>
    if n.toNat ≤ rest.length then .ok (mk offset (rest.take n.toNat), rest.drop n.toNat)
    else .error .shortFrame
  | _ => .error .shortFrame

/-! ## The opcode map -/

/-- The decoder (R81, R89, R90): the operation spelled by the frame that begins the bytes, and the
bytes after that frame. -/
def decodeFrame : List Byte → Decoded
  | [] => .error .shortFrame
  | op :: rest =>
    match op.toNat with
    | 0x00 => formatB .decodeBcd rest
    | 0x01 => formatB .encodeBcd rest
    | 0x02 => formatB .decodeHours rest
    | 0x03 => formatH .encodeHours rest
    | 0x10 => formatZ .getSeconds rest
    | 0x11 => formatZ .getMinutes rest
    | 0x12 => formatZ .getHours rest
    | 0x13 => formatZ .getWeekday rest
    | 0x14 => formatZ .getDay rest
    | 0x15 => formatZ .getMonth rest
    | 0x16 => formatZ .getYear rest
    | 0x17 => formatZ .getDatetime rest
    | 0x20 => formatB .setSeconds rest
    | 0x21 => formatB .setMinutes rest
    | 0x22 => formatH .setHours rest
    | 0x23 => formatB .setWeekday rest
    | 0x24 => formatB .setDay rest
    | 0x25 => formatB .setMonth rest
    | 0x26 => formatW .setYear rest
    | 0x27 => formatT .setDatetime rest
    | 0x30 => formatZ .running rest
    | 0x31 => formatZ .setRunning rest
    | 0x32 => formatZ .halt rest
    | 0x40 => formatZ .squareWaveOutputEnabled rest
    | 0x41 => formatZ .enableSquareWaveOutput rest
    | 0x42 => formatZ .disableSquareWaveOutput rest
    | 0x43 => formatZ .squareWaveOutputLevel rest
    | 0x44 => formatLevel .setSquareWaveOutputLevel rest
    | 0x45 => formatZ .squareWaveOutputRate rest
    | 0x46 => formatRate .setSquareWaveOutputRate rest
    | 0x50 => formatR .readRam rest
    | 0x51 => formatM .writeRam rest
    | _ => .error (.reservedOpcode op)

/-! ## The encoder -/

/-- The operand bytes of an `Hour`: tag, then number (R85). -/
def hourBytes (hour : Hour) : List Byte := [hourTag hour, hourNumber hour]

/-- The two bytes of a 16-bit operand, low first (R84). -/
def halfBytes (v : Half) : List Byte := [lowByte v, highByte v]

/-- Bytes 1 to 9 of format T (R86). -/
def dateTimeBytes (dt : DateTime) : List Byte :=
  halfBytes dt.year ++ [dt.month, dt.day, dt.weekday] ++ hourBytes dt.hour ++ [dt.minute, dt.second]

/-- The command frame of an instruction (R82 to R89). -/
def encode : Instr → List Byte
  | .decodeBcd b => [0x00, b]
  | .encodeBcd d => [0x01, d]
  | .decodeHours b => [0x02, b]
  | .encodeHours hour => 0x03 :: hourBytes hour
  | .getSeconds => [0x10]
  | .getMinutes => [0x11]
  | .getHours => [0x12]
  | .getWeekday => [0x13]
  | .getDay => [0x14]
  | .getMonth => [0x15]
  | .getYear => [0x16]
  | .getDatetime => [0x17]
  | .setSeconds v => [0x20, v]
  | .setMinutes v => [0x21, v]
  | .setHours hour => 0x22 :: hourBytes hour
  | .setWeekday v => [0x23, v]
  | .setDay v => [0x24, v]
  | .setMonth v => [0x25, v]
  | .setYear v => 0x26 :: halfBytes v
  | .setDatetime dt => 0x27 :: dateTimeBytes dt
  | .running => [0x30]
  | .setRunning => [0x31]
  | .halt => [0x32]
  | .squareWaveOutputEnabled => [0x40]
  | .enableSquareWaveOutput => [0x41]
  | .disableSquareWaveOutput => [0x42]
  | .squareWaveOutputLevel => [0x43]
  | .setSquareWaveOutputLevel level => [0x44, levelCode level]
  | .squareWaveOutputRate => [0x45]
  | .setSquareWaveOutputRate rate => [0x46, rateCode rate]
  | .readRam offset n => [0x50, offset, n]
  | .writeRam offset d => 0x51 :: offset :: BitVec.ofNat 8 d.length :: d

/-- The length in bytes of an instruction's frame, by format (R91). -/
def frameLength : Instr → Nat
  | .decodeBcd _ => 2
  | .encodeBcd _ => 2
  | .decodeHours _ => 2
  | .encodeHours _ => 3
  | .getSeconds => 1
  | .getMinutes => 1
  | .getHours => 1
  | .getWeekday => 1
  | .getDay => 1
  | .getMonth => 1
  | .getYear => 1
  | .getDatetime => 1
  | .setSeconds _ => 2
  | .setMinutes _ => 2
  | .setHours _ => 3
  | .setWeekday _ => 2
  | .setDay _ => 2
  | .setMonth _ => 2
  | .setYear _ => 3
  | .setDatetime _ => 10
  | .running => 1
  | .setRunning => 1
  | .halt => 1
  | .squareWaveOutputEnabled => 1
  | .enableSquareWaveOutput => 1
  | .disableSquareWaveOutput => 1
  | .squareWaveOutputLevel => 1
  | .setSquareWaveOutputLevel _ => 2
  | .squareWaveOutputRate => 1
  | .setSquareWaveOutputRate _ => 2
  | .readRam _ _ => 3
  | .writeRam _ d => 3 + d.length

/-! ## The opcode table's numbering of bits -/

/-- The longest frame: format M with 255 data bytes (R91). -/
def maxFrameLength : Nat := 258

/-- The bytes of a number, least significant first. -/
def bytesOfNat : Nat → Nat → List Byte
  | 0, _ => []
  | k + 1, w => BitVec.ofNat 8 w :: bytesOfNat k (w / 256)

/-- The frame whose bits are `w`, numbered as spec/opcode_table.json numbers them (byte 0 in bits 7:0,
byte 1 in bits 15:8 and so on), with zeros above bit `nbits` up to the longest frame. -/
def tableBytes (nbits w : Nat) : List Byte := bytesOfNat maxFrameLength (w % 2 ^ nbits)

/-- The instruction that the decoder reads from a table word. -/
def decodeTableWord (nbits w : Nat) : Option Instr :=
  match decodeFrame (tableBytes nbits w) with
  | .ok (i, _) => some i
  | .error _ => none

end Sys2Proof
end

