-- ==== Sys2Proof/Machine/State.lean ====
section
/-! DEFINITION. The state of the machine as plain data (spec/10_state.md), its faults and refusals, and
the state at launch. -/

namespace Sys2Proof.Machine

/-- The register space (R24, R50) as (address, byte) pairs in one canonical form: addresses strictly
rising and below 0x40, no entry equal to what an unlisted address reads as (`Memory.unlisted`). -/
abbrev Memory := List Host.Cell

/-- The two error kinds (R210). `invalidInputData` carries nothing (R211); `transport` carries exactly
the transport's value (R212). An error is an operation's result and not a fault of the machine. -/
inductive OpError where
  | invalidInputData
  | transport (e : TransportError)
deriving DecidableEq, Repr

/-- The success value of an operation, one constructor per result type of R89 and R93 (`Byte` and `U8`
are one type). -/
inductive Value where
  | unit
  | bool (b : Bool)
  | u8 (v : Byte)
  | u16 (v : Half)
  | hour (h : Hour)
  | dateTime (dt : DateTime)
  | level (l : Level)
  | rate (r : Rate)
  | bytes (bs : List Byte)
deriving DecidableEq, Repr

/-- The response to one command: its success value or one error, never both (R92, R210). -/
inductive Response where
  | ok (v : Value)
  | error (e : OpError)
deriving DecidableEq, Repr

/-- The recorded outcome of a read transaction (R36). -/
inductive ReadOutcome where
  | ok (data : List Byte)
  | fail (e : TransportError)
deriving DecidableEq, Repr

/-- The recorded outcome of a write transaction (R36). -/
inductive WriteOutcome where
  | ok
  | fail (e : TransportError)
deriving DecidableEq, Repr

/-- One event of the bus trace (R36): `RD(dev, wbytes, n, outcome)` or `WR(dev, bytes, outcome)`. -/
inductive BusEvent where
  | rd (dev : BitVec 7) (wbytes : List Byte) (n : Nat) (outcome : ReadOutcome)
  | wr (dev : BitVec 7) (bytes : List Byte) (outcome : WriteOutcome)
deriving DecidableEq, Repr

/-- The host port (R242, R246): idle, or held for ever by an operation whose transaction the transport
never answers (R65, U18; log 5). -/
inductive Port where
  | idle
  | hung
deriving DecidableEq, Repr

/-- How a step can stop for ever. -/
inductive Fault where
  /-- Raised by `step` when the port is held by an operation whose transaction the transport never
  answers: "a transport that never answers leaves the operation unfinished for ever" (R65, U18). Safe:
  the machine stops where the hardware waits (log 5). -/
  | transportNeverAnswers
deriving DecidableEq, Repr

/-- How a step can be refused. -/
inductive Refusal where
  /-- Raised by `exec` for an instruction that has no meaning yet. Safe. No arm of `exec` uses it. -/
  | notModelled (mnemonic : String)
  /-- Raised by `step` when the bytes on the host port begin with a reserved encoding: "A decoder
  refuses such a frame" (R90, U9). Safe: nothing is executed, no transaction is issued (log 12). -/
  | reservedEncoding (e : DecodeError)
deriving DecidableEq, Repr

/-- The state of the machine. The block itself keeps nothing between operations (R20); what is here is
the chip's register space, the two ports, the trace, the parameters and the environment's turns. -/
structure State where
  /-- The open parameters of R5, constant (log 2). -/
  params : Params
  /-- `reg[0x00..0x3F]` (R24 to R33). -/
  mem : Memory
  /-- Command bytes the host has put on the host port and the block has not accepted (R81; log 10). -/
  input : List Byte
  /-- Whether the host port can accept a command (R246). -/
  port : Port
  /-- The responses delivered, oldest first (R92; log 13). -/
  output : List Response
  /-- The bus trace, oldest first (R36; log 14). -/
  trace : List BusEvent
  /-- The environment's coming turns, one per transaction, next first (R64, R65; log 4). -/
  turns : List Turn
  /-- How many transactions have been issued: the argument of the free values (log 18). -/
  draws : Nat
deriving DecidableEq, Repr

/-- The state at launch (R37, R240 to R242): trace empty, port idle, nothing presented; the register
space holds what `Memory.unlisted` says (log 3); the parameters at the spec's defaults (log 2). -/
def State.reset : State where
  params :=
    { devAddr := Config.devAddr, timekeeper := .frozen, writeFailEffect := .havocAddressed,
      calSane := .gregorian }
  mem := []
  input := []
  port := .idle
  output := []
  trace := []
  turns := []
  draws := 0

end Sys2Proof.Machine
end

