-- ==== Sys2Proof/Machine/Ops.lean ====
section
/-! DEFINITION. The named operations over the register space, the environment's turns, the two bus
primitives (spec/20_memory.md), and how an operation ends: with a value, or by raising an error
(spec/60_exceptions.md R218). -/

namespace Sys2Proof.Machine

/-! ## The register space -/

/-- What a register that no entry lists holds: the launch contents. The spec leaves all 64 bytes open,
"never as zero" (R37, R241). DESIGN CHOICE (log 3): 0xFF. -/
def Memory.unlisted : Byte := 0xFF

/-- `reg[a]` (R24). -/
def Memory.get : Memory → Nat → Byte
  | [], _ => Memory.unlisted
  | (b, w) :: rest, a => if b = a then w else Memory.get rest a

/-- The memory without an entry for `a`. -/
def Memory.erase (m : Memory) (a : Nat) : Memory := m.filter (fun c => c.1 != a)

/-- The memory with an entry for `a` put before the first higher address. -/
def Memory.insertCell (a : Nat) (v : Byte) : Memory → Memory
  | [] => [(a, v)]
  | (b, w) :: rest =>
    if a < b then (a, v) :: (b, w) :: rest else (b, w) :: Memory.insertCell a v rest

/-- `reg[a] <- v`, keeping the canonical form. -/
def Memory.set (m : Memory) (a : Nat) (v : Byte) : Memory :=
  if v = Memory.unlisted then m.erase a else Memory.insertCell a v (m.erase a)

/-- The registers at `n` consecutive ascending addresses from `a` (R52). -/
def Memory.readSpan (m : Memory) (a : Nat) : Nat → List Byte
  | 0 => []
  | n + 1 => m.get a :: Memory.readSpan m (a + 1) n

/-- `reg[a+i] <- data[i]` for every `i` (R53). -/
def Memory.writeSpan (m : Memory) (a : Nat) : List Byte → Memory
  | [] => m
  | v :: rest => Memory.writeSpan (m.set a v) (a + 1) rest

/-- The entries are canonical from address `lo` on. -/
def Memory.wfFrom : Nat → Memory → Bool
  | _, [] => true
  | lo, (a, v) :: rest =>
    decide (lo ≤ a) && decide (a < 0x40) && (v != Memory.unlisted) && Memory.wfFrom (a + 1) rest

/-- The canonical form: addresses strictly rising, inside 0x00 to 0x3F (R24), no entry equal to what an
unlisted address reads as. -/
def Memory.wf (m : Memory) : Bool := Memory.wfFrom 0 m

/-! ## Spans: transfers that stay inside the register space

"A model may state `addr + n <= 0x40` as a precondition of `MemRead`/`MemWrite` and prove it at every
call" (U17): a transfer that would leave the space cannot be written down. -/

/-- What `MemRead` transfers: `n` registers from `addr` (R52). -/
structure Span where
  addr : Nat
  len : Nat
  nonempty : 1 ≤ len
  inside : addr + len ≤ 0x40

/-- What `MemWrite` transfers: the address-prefixed payload (R53). -/
structure Payload where
  addr : Nat
  data : List Byte
  nonempty : 1 ≤ data.length
  inside : addr + data.length ≤ 0x40

/-- The eight named registers (R24). -/
inductive Reg where
  | seconds
  | minutes
  | hours
  | weekday
  | day
  | month
  | year
  | sqw
deriving DecidableEq, Repr

/-- The register map (R5, R57). -/
def Reg.addr : Reg → Nat
  | .seconds => 0x00
  | .minutes => 0x01
  | .hours => 0x02
  | .weekday => 0x03
  | .day => 0x04
  | .month => 0x05
  | .year => 0x06
  | .sqw => 0x07

/-- The register map lies below the RAM window. -/
theorem Reg.addr_lt (r : Reg) : r.addr < 8 := by cases r <;> decide

/-- `RAM_BASE` (R5). -/
def ramBase : Nat := 0x08

/-- `RAM_LEN` (R5). -/
def ramLen : Nat := 56

/-- The span of one register. -/
def Reg.span (r : Reg) : Span where
  addr := r.addr
  len := 1
  nonempty := by decide
  inside := by have := r.addr_lt; omega

/-- The payload that writes one register. -/
def Reg.payload (r : Reg) (x : Byte) : Payload where
  addr := r.addr
  data := [x]
  nonempty := by simp
  inside := by have := r.addr_lt; simp; omega

/-! ## The environment's turns -/

/-- The turn of the transaction that is `k` transactions ahead: the listed one, or, past the list, the
free one (R65, log 4). -/
def State.turnAt (s : State) (k : Nat) : Turn :=
  match s.turns[k]? with
  | some t => t
  | none => Config.freeTurn (s.draws + k)

/-- The timekeeper's act on the register space (R64): nothing under `frozen`; under `free`, bits 6:0 of
`reg[0x00]` and all of `reg[0x01]` to `reg[0x06]` take the tick's values, and `CH` stays. -/
def Memory.tick (m : Memory) (k : Timekeeper) (t : Option Tick) : Memory :=
  match k with
  | .frozen => m
  | .free =>
    match t with
    | none => m
    | some t =>
      m.writeSpan 0x00
        [(m.get 0x00 &&& 0x80) ||| t.seconds.setWidth 8, t.minutes, t.hours, t.weekday, t.day,
          t.month, t.year]

/-- The register space at the transaction that is `k` transactions ahead, if none before it writes: the
timekeeper has acted before each (R64). -/
def State.busMem (s : State) : Nat → Memory
  | 0 => s.mem.tick s.params.timekeeper (s.turnAt 0).tick
  | k + 1 => (s.busMem k).tick s.params.timekeeper (s.turnAt (k + 1)).tick

/-- The next transaction begins: its turn is used up, and the timekeeper has acted (R64). -/
def State.begin (s : State) : State :=
  { s with
    mem := s.busMem 0
    turns := s.turns.tail
    draws := s.draws + 1 }

/-- An event is appended to the trace (R36). -/
def State.record (s : State) (e : BusEvent) : State := { s with trace := s.trace ++ [e] }

/-- The register space is replaced. -/
def State.withMem (s : State) (m : Memory) : State := { s with mem := m }

/-! ## Actions: parts of an operation, and how they end -/

/-- How a part of an operation ends: with a value, with an error raised, or never (U18). -/
inductive Ended (α : Type) where
  | value (a : α)
  | raised (e : OpError)
  | hung

/-- A part of an operation. -/
abbrev Action (α : Type) := State → Ended α × State

/-- `return a` (R7). -/
def ret {α : Type} (a : α) : Action α := fun s => (.value a, s)

/-- `raise e`: the operation ends at once; no further step of it runs (R7, R218). -/
def raise {α : Type} (e : OpError) : Action α := fun s => (.raised e, s)

/-- `let a = first; rest a`: after an error, or where the first part never ends, the rest does not run
(R212, R218). -/
def Action.andThen {α β : Type} (first : Action α) (rest : α → Action β) : Action β := fun s =>
  match first s with
  | (.value a, s') => rest a s'
  | (.raised e, s') => (.raised e, s')
  | (.hung, s') => (.hung, s')

/-- `if not ok then raise InvalidInputData`, then the rest (R131, R217 item 1). -/
def require {α : Type} (ok : Bool) (rest : Action α) : Action α :=
  if ok then rest else raise .invalidInputData

/-! ## The two bus primitives -/

/-- The event of a read transaction (R52). -/
def State.readEvent (s : State) (sp : Span) (outcome : ReadOutcome) : BusEvent :=
  .rd s.params.devAddr [BitVec.ofNat 8 sp.addr] sp.len outcome

/-- The event of a write transaction (R53). -/
def State.writeEvent (s : State) (p : Payload) (outcome : WriteOutcome) : BusEvent :=
  .wr s.params.devAddr (BitVec.ofNat 8 p.addr :: p.data) outcome

/-- `MemRead(addr, n)` (R52). -/
def memRead (sp : Span) : Action (List Byte) := fun s =>
  match (s.turnAt 0).answer with
  | .ok =>
    let data := s.begin.mem.readSpan sp.addr sp.len
    (.value data, s.begin.record (s.readEvent sp (.ok data)))
  | .fail e => (.raised (.transport e), s.begin.record (s.readEvent sp (.fail e)))
  | .never => (.hung, s.begin)

/-- The bytes that a failed write of `n` bytes leaves under `havoc_addressed`: those the turn lists,
and free values past them (R53, U5; log 7). -/
def State.leftovers (s : State) (n : Nat) : List Byte :=
  (List.range n).map fun i => (s.turnAt 0).leftover.getD i (Config.freeLeftover s.draws i)

/-- The register space after a failed write (R53, `WRITE_FAIL_EFFECT`). -/
def State.memAfterFailedWrite (s : State) (p : Payload) : Memory :=
  match s.params.writeFailEffect with
  | .havocAddressed => s.begin.mem.writeSpan p.addr (s.leftovers p.data.length)
  | .unchanged => s.begin.mem

/-- `MemWrite(addr, n, v)` (R53). -/
def memWrite (p : Payload) : Action Unit := fun s =>
  match (s.turnAt 0).answer with
  | .ok =>
    (.value (),
      (s.begin.withMem (s.begin.mem.writeSpan p.addr p.data)).record (s.writeEvent p .ok))
  | .fail e =>
    (.raised (.transport e),
      (s.begin.withMem (s.memAfterFailedWrite p)).record (s.writeEvent p (.fail e)))
  | .never => (.hung, s.begin)

/-- `MemRead(a, 1)[0]`. -/
def readReg (r : Reg) : Action Byte :=
  (memRead r.span).andThen fun bs => ret (bs.getD 0 0)

/-- `MemWrite(a, 1, [x])`. -/
def writeReg (r : Reg) (x : Byte) : Action Unit := memWrite (r.payload x)

/-! ## How an operation ends on the host port -/

/-- A response is delivered to the caller (R92). -/
def State.respond (s : State) (r : Response) : State := { s with output := s.output ++ [r] }

/-- The port is held for ever: no response is delivered and no command accepted (R65, U18; log 5). -/
def State.hang (s : State) : State := { s with port := .hung }

/-- The end of an operation: its value or its error becomes the response; nothing is saved and no mode
changes; the block is at once ready for the next operation (R218, R219). -/
def deliver : Ended Value × State → State
  | (.value v, s) => s.respond (.ok v)
  | (.raised e, s) => s.respond (.error e)
  | (.hung, s) => s.hang

/-- One whole operation as a step: it always terminates (R252). -/
def perform (a : Action Value) (s : State) : Host.Outcome State Fault Refusal := .next (deliver (a s))

/-- The result of an operation that returns no value. -/
def done : Action Unit → Action Value := fun a => a.andThen fun _ => ret .unit

/-! ## Launch -/

/-- The launch state with given parameters, register contents and environment: the spec's free input
"any 64 bytes" is the list `image`, `image[a]` the content of `reg[a]` (R37, R241). -/
def State.launch (params : Params) (image : List Byte) (turns : List Turn) : State :=
  { State.reset with params := params, mem := Memory.writeSpan [] 0 image, turns := turns }

end Sys2Proof.Machine
end

