-- ==== Sys2Proof/Machine/Operands.lean ====
section
/-! DEFINITION. The values that registers encode and the checks on operands: packed BCD
(spec/40_bcd_codec.md), the hour byte (spec/41_hours_encoding.md), the date-time image and calendar
checks (spec/43_datetime.md), and the RAM admission check (spec/46_ram_window.md R200). -/

namespace Sys2Proof.Machine

/-! ## Packed BCD -/

/-- `b[7:4]` (R6). -/
def highNibble (b : Byte) : Nat := (b.extractLsb 7 4).toNat

/-- `b[3:0]` (R6). -/
def lowNibble (b : Byte) : Nat := (b.extractLsb 3 0).toNat

/-- `bcd_decode` as a natural number, 0 to 165 (R110). -/
def bcdValue (b : Byte) : Nat := highNibble b * 10 + lowNibble b

/-- `bcd_decode` (R110). The value fits in 8 bits (R113). -/
def bcdDecode (b : Byte) : Byte := BitVec.ofNat 8 (bcdValue b)

/-- `bcd_encode` (R111): `((d / 10) << 4) | (d % 10)`, low 8 bits kept. -/
def bcdEncode (d : Byte) : Byte := BitVec.ofNat 8 (((d.toNat / 10) <<< 4) ||| (d.toNat % 10))

/-! ## The hour byte -/

/-- `hours_decode` (R120). Bit 7 is ignored. -/
def hoursDecode (b : Byte) : Hour :=
  if b.getLsbD 6 = false then .h24 (bcdDecode (b &&& 0x3F))
  else if b.getLsbD 5 = false then .am (bcdDecode (b &&& 0x1F))
  else .pm (bcdDecode (b &&& 0x1F))

/-- `hour_valid` (R121). -/
def hourValid : Hour → Bool
  | .h24 h => decide (h.toNat ≤ 23)
  | .am h => decide (1 ≤ h.toNat ∧ h.toNat ≤ 12)
  | .pm h => decide (1 ≤ h.toNat ∧ h.toNat ≤ 12)

/-- The byte that `hours_encode` gives a valid hour (R121). -/
def hourByte : Hour → Byte
  | .h24 h => bcdEncode h
  | .am h => 0x40 ||| bcdEncode h
  | .pm h => 0x40 ||| 0x20 ||| bcdEncode h

/-- `hours_encode` (R121): raises `InvalidInputData` when the hour is not valid. -/
def hoursEncode (hour : Hour) : Action Byte := require (hourValid hour) (ret (hourByte hour))

/-! ## Fields -/

/-- The year that a year register encodes: `2000 + bcd_decode(b)`, 2000 to 2165 (R144). -/
def yearDecode (b : Byte) : Half := BitVec.ofNat 16 (2000 + bcdValue b)

/-- `bcd_encode(v - 2000)` (R145). -/
def yearByte (v : Half) : Byte := bcdEncode (BitVec.ofNat 8 (v.toNat - 2000))

/-- `(r & 0x80) | bcd_encode(v)`: the seconds byte, halt bit as read (R133). -/
def secondsByte (r v : Byte) : Byte := (r &&& 0x80) ||| bcdEncode v

/-- Seconds and minutes: 0 to 59 (R133, R135). -/
def sixtyOk (v : Byte) : Bool := decide (v.toNat ≤ 59)

/-- Weekday: 1 to 7 (R139). -/
def weekdayOk (v : Byte) : Bool := decide (1 ≤ v.toNat ∧ v.toNat ≤ 7)

/-- Day: 1 to 31, whatever the month (R141). -/
def dayOk (v : Byte) : Bool := decide (1 ≤ v.toNat ∧ v.toNat ≤ 31)

/-- Month: 1 to 12 (R143). -/
def monthOk (v : Byte) : Bool := decide (1 ≤ v.toNat ∧ v.toNat ≤ 12)

/-- Year: 2000 to 2099 (R145). -/
def yearOk (v : Half) : Bool := decide (2000 ≤ v.toNat ∧ v.toNat ≤ 2099)

/-! ## The date-time image -/

/-- `dt_ranges_ok` (R163). -/
def dtRangesOk (dt : DateTime) : Bool :=
  yearOk dt.year && monthOk dt.month && dayOk dt.day && weekdayOk dt.weekday && hourValid dt.hour &&
    sixtyOk dt.minute && sixtyOk dt.second

/-- `dt_payload` (R164): the seven bytes, seconds to year. -/
def dtPayload (r0 : Byte) (dt : DateTime) : List Byte :=
  [secondsByte r0 dt.second, bcdEncode dt.minute, hourByte dt.hour, dt.weekday, bcdEncode dt.day,
    bcdEncode dt.month, yearByte dt.year]

/-- `dt_decode` (R164) of the seven bytes. `MemRead` gives exactly seven, so that the value a missing
byte is given here is never used. -/
def dtDecode (bs : List Byte) : DateTime where
  second := bcdDecode (bs.getD 0 0 &&& 0x7F)
  minute := bcdDecode (bs.getD 1 0)
  hour := hoursDecode (bs.getD 2 0)
  weekday := bs.getD 3 0
  day := bcdDecode (bs.getD 4 0)
  month := bcdDecode (bs.getD 5 0)
  year := yearDecode (bs.getD 6 0)

/-- The span of the seven time registers (R160). -/
def dateTimeSpan : Span where
  addr := 0x00
  len := 7
  nonempty := by decide
  inside := by decide

/-- The payload of the combined write (R161). -/
def dateTimePayload (r0 : Byte) (dt : DateTime) : Payload where
  addr := 0x00
  data := dtPayload r0 dt
  nonempty := by simp [dtPayload]
  inside := by simp [dtPayload]

/-! ## The calendar check -/

/-- `days_in_month` (R162). -/
def daysInMonth (y m : Nat) : Nat :=
  match m with
  | 2 => if y % 4 = 0 then 29 else 28
  | 4 | 6 | 9 | 11 => 30
  | _ => 31

/-- `CAL_SANE` (R162): an admissible predicate implies `dt_ranges_ok`. The third kind is any other
admissible predicate, a free value of Config (log 9). -/
def calSane (c : CalCheck) (dt : DateTime) : Bool :=
  match c with
  | .range => dtRangesOk dt
  | .gregorian => dtRangesOk dt && decide (dt.day.toNat ≤ daysInMonth dt.year.toNat dt.month.toNat)
  | .other k => dtRangesOk dt && Config.otherCalCheck k dt

/-! ## The RAM admission check -/

/-- The three outcomes of `ram_check(offset, n)` (R200), each with what it says of its operands. -/
inductive RamCheck (offset n : Nat) where
  | empty (h : n = 0)
  | invalid (h : 1 ≤ n ∧ (offset ≥ ramLen ∨ offset + n > ramLen))
  | span (h : 1 ≤ n ∧ offset + n ≤ ramLen)

/-- `ram_check` (R200): the empty test first; the sum is a natural number and never wraps. -/
def ramCheck (offset n : Nat) : RamCheck offset n :=
  if h0 : n = 0 then .empty h0
  else if h1 : offset ≥ ramLen ∨ offset + n > ramLen then .invalid ⟨by omega, h1⟩
  else .span ⟨by omega, by omega⟩

/-- The span of `n` RAM bytes from `offset` (R67 item b, R201). -/
def ramSpan {offset n : Nat} (h : 1 ≤ n ∧ offset + n ≤ ramLen) : Span where
  addr := ramBase + offset
  len := n
  nonempty := h.1
  inside := by have := h.2; simp only [ramBase, ramLen] at *; omega

/-- The payload that writes a buffer at a RAM offset (R202). -/
def ramPayload {offset : Nat} (d : List Byte) (h : 1 ≤ d.length ∧ offset + d.length ≤ ramLen) :
    Payload where
  addr := ramBase + offset
  data := d
  nonempty := h.1
  inside := by have := h.2; simp only [ramBase, ramLen] at *; omega

end Sys2Proof.Machine
end

