-- ==== Sys2Proof/Machine/Flags.lean ====
section
/-! DEFINITION. The bit flags of the chip's registers (spec/10_state.md R25, R32), the two generic flag
helpers (spec/44_oscillator.md R170) and the codes of the square-wave register
(spec/45_square_wave.md R187, R188). The block has no flag register of its own (R23). -/

namespace Sys2Proof.Machine

/-- `CH`, bit 7 of REG_SECONDS: 1 = oscillator halted (R25). -/
def maskCH : Byte := 0x80

/-- `OUT`, bit 7 of REG_SQW: the output level (R32). -/
def maskOUT : Byte := 0x80

/-- `SQWE`, bit 4 of REG_SQW: 1 = output enabled (R32). -/
def maskSQWE : Byte := 0x10

/-- `RS`, bits 1:0 of REG_SQW: the rate selector (R32). -/
def maskRS : Byte := 0x03

/-- `set_flag(a, m)` (R170): one read; one write only if the flag is clear. -/
def setFlag (a : Reg) (m : Byte) : Action Unit :=
  (readReg a).andThen fun r => if r &&& m = 0 then writeReg a (r ||| m) else ret ()

/-- `clear_flag(a, m)` (R170): one read; one write only if the flag is set. -/
def clearFlag (a : Reg) (m : Byte) : Action Unit :=
  (readReg a).andThen fun r => if r &&& m ≠ 0 then writeReg a (r &&& ~~~m) else ret ()

/-- `level_of` (R188). -/
def levelOf (r : Byte) : Level := if r &&& maskOUT ≠ 0 then .high else .low

/-- `rate_of` of the two selector bits (R187). -/
def rateOf (r : Byte) : Rate :=
  match (r &&& maskRS).toNat with
  | 0 => .hz1
  | 1 => .hz4096
  | 2 => .hz8192
  | _ => .hz32768

/-- The square-wave byte with the rate selector replaced: `(r & 0xFC) | c` (R186). -/
def withRate (r : Byte) (rate : Rate) : Byte := (r &&& ~~~maskRS) ||| rateCode rate

end Sys2Proof.Machine
end

