-- ==== Sys2Proof/Machine/Calendar.lean ====
section
/-! DEFINITION. The combined date-time accessor (spec/43_datetime.md). -/

namespace Sys2Proof.Machine

/-- `get_datetime` (R160): one read of seven bytes, then the calendar check on what was read. -/
def execGetDatetime (s : State) : Host.Outcome State Fault Refusal :=
  perform
    ((memRead dateTimeSpan).andThen fun bs =>
      require (calSane s.params.calSane (dtDecode bs)) (ret (.dateTime (dtDecode bs)))) s

/-- `set_datetime` (R161): the ranges first, then one read for the halt bit, then one write of seven
bytes. The calendar check is not applied. -/
def execSetDatetime (dt : DateTime) (s : State) : Host.Outcome State Fault Refusal :=
  perform
    (done (require (dtRangesOk dt)
      ((readReg .seconds).andThen fun r0 => memWrite (dateTimePayload r0 dt)))) s

end Sys2Proof.Machine
end

