-- ==== Sys2Proof/Machine/Codec.lean ====
section
/-! DEFINITION. The pure codec operations (spec/40_bcd_codec.md, spec/41_hours_encoding.md): no register
is read and no transaction is issued. -/

namespace Sys2Proof.Machine

/-- `decode` (R110). -/
def execDecodeBcd (b : Byte) (s : State) : Host.Outcome State Fault Refusal :=
  perform (ret (.u8 (bcdDecode b))) s

/-- `encode` (R111). -/
def execEncodeBcd (d : Byte) (s : State) : Host.Outcome State Fault Refusal :=
  perform (ret (.u8 (bcdEncode d))) s

/-- `decode_hours` (R120). -/
def execDecodeHours (b : Byte) (s : State) : Host.Outcome State Fault Refusal :=
  perform (ret (.hour (hoursDecode b))) s

/-- `encode_hours` (R121). -/
def execEncodeHours (hour : Hour) (s : State) : Host.Outcome State Fault Refusal :=
  perform ((hoursEncode hour).andThen fun b => ret (.u8 b)) s

end Sys2Proof.Machine
end

