-- ==== Sys2Proof/Machine/Fields.lean ====
section
/-! DEFINITION. The fourteen field accessors (spec/42_field_accessors.md). Every getter issues one read
and checks nothing (R130); every setter checks its operand before any transaction (R131). -/

namespace Sys2Proof.Machine

/-- `get_seconds` (R132): the halt bit is stripped. -/
def execGetSeconds (s : State) : Host.Outcome State Fault Refusal :=
  perform ((readReg .seconds).andThen fun r => ret (.u8 (bcdDecode (r &&& 0x7F)))) s

/-- `set_seconds` (R133): the halt bit is written as read. -/
def execSetSeconds (v : Byte) (s : State) : Host.Outcome State Fault Refusal :=
  perform
    (done (require (sixtyOk v)
      ((readReg .seconds).andThen fun r => writeReg .seconds (secondsByte r v)))) s

/-- `get_minutes` (R134). -/
def execGetMinutes (s : State) : Host.Outcome State Fault Refusal :=
  perform ((readReg .minutes).andThen fun r => ret (.u8 (bcdDecode r))) s

/-- `set_minutes` (R135). -/
def execSetMinutes (v : Byte) (s : State) : Host.Outcome State Fault Refusal :=
  perform (done (require (sixtyOk v) (writeReg .minutes (bcdEncode v)))) s

/-- `get_hours` (R136). -/
def execGetHours (s : State) : Host.Outcome State Fault Refusal :=
  perform ((readReg .hours).andThen fun r => ret (.hour (hoursDecode r))) s

/-- `set_hours` (R137): the variant written selects the chip's hour mode (R123). -/
def execSetHours (hour : Hour) (s : State) : Host.Outcome State Fault Refusal :=
  perform (done ((hoursEncode hour).andThen fun b => writeReg .hours b)) s

/-- `get_weekday` (R138): the byte as it is. -/
def execGetWeekday (s : State) : Host.Outcome State Fault Refusal :=
  perform ((readReg .weekday).andThen fun r => ret (.u8 r)) s

/-- `set_weekday` (R139): a plain integer, not BCD. -/
def execSetWeekday (v : Byte) (s : State) : Host.Outcome State Fault Refusal :=
  perform (done (require (weekdayOk v) (writeReg .weekday v))) s

/-- `get_day` (R140). -/
def execGetDay (s : State) : Host.Outcome State Fault Refusal :=
  perform ((readReg .day).andThen fun r => ret (.u8 (bcdDecode r))) s

/-- `set_day` (R141): not checked against the month. -/
def execSetDay (v : Byte) (s : State) : Host.Outcome State Fault Refusal :=
  perform (done (require (dayOk v) (writeReg .day (bcdEncode v)))) s

/-- `get_month` (R142). -/
def execGetMonth (s : State) : Host.Outcome State Fault Refusal :=
  perform ((readReg .month).andThen fun r => ret (.u8 (bcdDecode r))) s

/-- `set_month` (R143). -/
def execSetMonth (v : Byte) (s : State) : Host.Outcome State Fault Refusal :=
  perform (done (require (monthOk v) (writeReg .month (bcdEncode v)))) s

/-- `get_year` (R144). -/
def execGetYear (s : State) : Host.Outcome State Fault Refusal :=
  perform ((readReg .year).andThen fun r => ret (.u16 (yearDecode r))) s

/-- `set_year` (R145): the operand is the absolute year. -/
def execSetYear (v : Half) (s : State) : Host.Outcome State Fault Refusal :=
  perform (done (require (yearOk v) (writeReg .year (yearByte v)))) s

end Sys2Proof.Machine
end

