-- ==== Sys2Proof/Machine/Oscillator.lean ====
section
/-! DEFINITION. Oscillator control (spec/44_oscillator.md): the halt flag `CH`. -/

namespace Sys2Proof.Machine

/-- `running` (R171): true when the halt bit is clear. -/
def execRunning (s : State) : Host.Outcome State Fault Refusal :=
  perform ((readReg .seconds).andThen fun r => ret (.bool (r &&& maskCH == 0))) s

/-- `set_running` (R172). -/
def execSetRunning (s : State) : Host.Outcome State Fault Refusal :=
  perform (done (clearFlag .seconds maskCH)) s

/-- `halt` (R173). -/
def execHalt (s : State) : Host.Outcome State Fault Refusal :=
  perform (done (setFlag .seconds maskCH)) s

end Sys2Proof.Machine
end

