-- ==== Sys2Proof/Machine/Ram.lean ====
section
/-! DEFINITION. The user RAM window (spec/46_ram_window.md). -/

namespace Sys2Proof.Machine

/-- `read_ram` (R201). -/
def execReadRam (offset n : Byte) (s : State) : Host.Outcome State Fault Refusal :=
  perform
    (match ramCheck offset.toNat n.toNat with
      | .empty _ => ret (.bytes [])
      | .invalid _ => raise .invalidInputData
      | .span h => (memRead (ramSpan h)).andThen fun bs => ret (.bytes bs)) s

/-- `write_ram` (R202): a span is written whole or rejected whole. -/
def execWriteRam (offset : Byte) (d : List Byte) (s : State) : Host.Outcome State Fault Refusal :=
  perform
    (match ramCheck offset.toNat d.length with
      | .empty _ => ret .unit
      | .invalid _ => raise .invalidInputData
      | .span h => done (memWrite (ramPayload d h))) s

end Sys2Proof.Machine
end

