-- ==== Sys2Proof/Machine/SquareWave.lean ====
section
/-! DEFINITION. Square-wave output control (spec/45_square_wave.md): the register REG_SQW. -/

namespace Sys2Proof.Machine

/-- `square_wave_output_enabled` (R180). -/
def execSquareWaveOutputEnabled (s : State) : Host.Outcome State Fault Refusal :=
  perform ((readReg .sqw).andThen fun r => ret (.bool (r &&& maskSQWE != 0))) s

/-- `enable_square_wave_output` (R181). -/
def execEnableSquareWaveOutput (s : State) : Host.Outcome State Fault Refusal :=
  perform (done (setFlag .sqw maskSQWE)) s

/-- `disable_square_wave_output` (R182). -/
def execDisableSquareWaveOutput (s : State) : Host.Outcome State Fault Refusal :=
  perform (done (clearFlag .sqw maskSQWE)) s

/-- `square_wave_output_level` (R183). -/
def execSquareWaveOutputLevel (s : State) : Host.Outcome State Fault Refusal :=
  perform ((readReg .sqw).andThen fun r => ret (.level (levelOf r))) s

/-- `set_square_wave_output_level` (R184). -/
def execSetSquareWaveOutputLevel (level : Level) (s : State) : Host.Outcome State Fault Refusal :=
  match level with
  | .high => perform (done (setFlag .sqw maskOUT)) s
  | .low => perform (done (clearFlag .sqw maskOUT)) s

/-- `square_wave_output_rate` (R185). -/
def execSquareWaveOutputRate (s : State) : Host.Outcome State Fault Refusal :=
  perform ((readReg .sqw).andThen fun r => ret (.rate (rateOf r))) s

/-- `set_square_wave_output_rate` (R186): no write when the selector already holds the code. -/
def execSetSquareWaveOutputRate (rate : Rate) (s : State) : Host.Outcome State Fault Refusal :=
  perform
    (done ((readReg .sqw).andThen fun r =>
      if r &&& maskRS ≠ rateCode rate then writeReg .sqw (withRate r rate) else ret ())) s

end Sys2Proof.Machine
end

