-- ==== Sys2Proof/Machine/Dispatch.lean ====
section
/-! DEFINITION. One arm per operation of the opcode table (spec/30_encoding.md R89). -/

namespace Sys2Proof.Machine

def exec (i : Instr) (s : State) : Host.Outcome State Fault Refusal :=
  match i with
  | .decodeBcd b => Sys2Proof.Machine.execDecodeBcd b s
  | .encodeBcd d => Sys2Proof.Machine.execEncodeBcd d s
  | .decodeHours b => Sys2Proof.Machine.execDecodeHours b s
  | .encodeHours hour => Sys2Proof.Machine.execEncodeHours hour s
  | .getSeconds => Sys2Proof.Machine.execGetSeconds s
  | .getMinutes => Sys2Proof.Machine.execGetMinutes s
  | .getHours => Sys2Proof.Machine.execGetHours s
  | .getWeekday => Sys2Proof.Machine.execGetWeekday s
  | .getDay => Sys2Proof.Machine.execGetDay s
  | .getMonth => Sys2Proof.Machine.execGetMonth s
  | .getYear => Sys2Proof.Machine.execGetYear s
  | .getDatetime => Sys2Proof.Machine.execGetDatetime s
  | .setSeconds v => Sys2Proof.Machine.execSetSeconds v s
  | .setMinutes v => Sys2Proof.Machine.execSetMinutes v s
  | .setHours hour => Sys2Proof.Machine.execSetHours hour s
  | .setWeekday v => Sys2Proof.Machine.execSetWeekday v s
  | .setDay v => Sys2Proof.Machine.execSetDay v s
  | .setMonth v => Sys2Proof.Machine.execSetMonth v s
  | .setYear v => Sys2Proof.Machine.execSetYear v s
  | .setDatetime dt => Sys2Proof.Machine.execSetDatetime dt s
  | .running => Sys2Proof.Machine.execRunning s
  | .setRunning => Sys2Proof.Machine.execSetRunning s
  | .halt => Sys2Proof.Machine.execHalt s
  | .squareWaveOutputEnabled => Sys2Proof.Machine.execSquareWaveOutputEnabled s
  | .enableSquareWaveOutput => Sys2Proof.Machine.execEnableSquareWaveOutput s
  | .disableSquareWaveOutput => Sys2Proof.Machine.execDisableSquareWaveOutput s
  | .squareWaveOutputLevel => Sys2Proof.Machine.execSquareWaveOutputLevel s
  | .setSquareWaveOutputLevel level => Sys2Proof.Machine.execSetSquareWaveOutputLevel level s
  | .squareWaveOutputRate => Sys2Proof.Machine.execSquareWaveOutputRate s
  | .setSquareWaveOutputRate rate => Sys2Proof.Machine.execSetSquareWaveOutputRate rate s
  | .readRam offset n => Sys2Proof.Machine.execReadRam offset n s
  | .writeRam offset d => Sys2Proof.Machine.execWriteRam offset d s

end Sys2Proof.Machine
end

