-- ==== Sys2Proof/Machine/Fetch.lean ====
section
/-! DEFINITION. Accepting a command on the host port (spec/30_encoding.md R90, R91,
spec/70_reset_and_hazards.md R246). The block has no program counter and fetches from no memory (R22,
R62): the next command is what the host presents. -/

namespace Sys2Proof.Machine

/-- What the host port offers the block. -/
inductive Offer where
  /-- The port is held by an operation that never completes (U18). -/
  | occupied
  /-- The port is idle and nothing is presented. -/
  | nothing
  /-- The bytes begin with the frame of an operation; the bytes after it. -/
  | command (i : Instr) (rest : List Byte)
  /-- The bytes begin with a reserved encoding (R90). -/
  | reserved (e : DecodeError)

/-- The offer of the host port in a state. -/
def offer (s : State) : Offer :=
  match s.port with
  | .hung => .occupied
  | .idle =>
    match s.input with
    | [] => .nothing
    | b :: bs =>
      match decodeFrame (b :: bs) with
      | .ok (i, rest) => .command i rest
      | .error e => .reserved e

/-- The frame's bytes are taken from the host port. -/
def State.accept (s : State) (rest : List Byte) : State := { s with input := rest }

/-- The host presents exactly these bytes at an idle port. -/
def State.present (s : State) (bytes : List Byte) : State := { s with input := bytes, port := .idle }

end Sys2Proof.Machine
end

