-- ==== Sys2Proof/Machine/Step.lean ====
section
/-! DEFINITION. One step of the machine: one whole operation (spec/70_reset_and_hazards.md R246, D22). -/

namespace Sys2Proof.Machine

/-- A step accepts the next command and runs it to completion (R246). With nothing presented the block
stays idle (log 11). A reserved encoding is refused: the step does not exist (R90, U9; log 12). With the
port held by an operation that never completes there is no further step (R65, U18; log 5). -/
def step (s : State) : Host.Outcome State Fault Refusal :=
  match offer s with
  | .occupied => .fault .transportNeverAnswers
  | .nothing => .next s
  | .command i rest => exec i (s.accept rest)
  | .reserved e => .refused (.reservedEncoding e)

/-- The state with the instruction of a table word presented on the host port, as the bytes that `step`
takes next (log 10). -/
def State.withFetchWord (s : State) (nbits w : Nat) : State := s.present (tableBytes nbits w)

end Sys2Proof.Machine
end

