-- ==== Sys2Proof/Machine/Assembly.lean ====
section
/-! DEFINITION. The textual form of an operation (spec/30_encoding.md R94): one operation per line, the
mnemonic of R89, then its operands separated by commas; `#` starts a comment. The machine never reads
text: this is how a test program is written down. Points R94 leaves open are in log 16. -/

namespace Sys2Proof.Machine

/-- A line's text, as characters. -/
abbrev Text := List Char

/-- Blanks stand between the parts of a line. -/
def isBlank (c : Char) : Bool := c == ' ' || c == '\t'

/-- The text without blanks at its ends. -/
def trimmed (t : Text) : Text := ((t.dropWhile isBlank).reverse.dropWhile isBlank).reverse

/-- The parts of a text between commas. -/
def splitCommas : Text → List Text
  | [] => [[]]
  | c :: cs =>
    match splitCommas cs with
    | [] => [[c]]
    | w :: ws => if c == ',' then [] :: w :: ws else (c :: w) :: ws

/-- The value of a digit, at most 15. -/
def digitValue (c : Char) : Option Nat :=
  if '0' ≤ c ∧ c ≤ '9' then some (c.toNat - '0'.toNat)
  else if 'a' ≤ c ∧ c ≤ 'f' then some (c.toNat - 'a'.toNat + 10)
  else if 'A' ≤ c ∧ c ≤ 'F' then some (c.toNat - 'A'.toNat + 10)
  else none

/-- The number that digits in a base spell, after the number `acc` read so far. -/
def digitsFrom (base acc : Nat) : Text → Option Nat
  | [] => some acc
  | c :: cs =>
    match digitValue c with
    | some d => if d < base then digitsFrom base (acc * base + d) cs else none
    | none => none

/-- At least one digit. -/
def digits (base : Nat) : Text → Option Nat
  | [] => none
  | c :: cs => digitsFrom base 0 (c :: cs)

/-- An integer: decimal `58`, hexadecimal `0x3A`, or binary `0b0011_1010` with underscores ignored. -/
def parseNat : Text → Option Nat
  | '0' :: 'x' :: cs => digits 16 cs
  | '0' :: 'b' :: cs => digits 2 (cs.filter (· != '_'))
  | cs => digits 10 cs

/-- An integer that fits an 8-bit operand. -/
def parseByte (t : Text) : Option Byte :=
  match parseNat t with
  | some n => if n < 256 then some (BitVec.ofNat 8 n) else none
  | none => none

/-- An integer that fits the 16-bit operand. -/
def parseHalf (t : Text) : Option Half :=
  match parseNat t with
  | some n => if n < 65536 then some (BitVec.ofNat 16 n) else none
  | none => none

/-- An integer and the closing parenthesis. -/
def parseClosed (t : Text) : Option Byte :=
  if t.getLast? = some ')' then parseByte (trimmed t.dropLast) else none

/-- `H24(23)`, `AM(1)`, `PM(12)`. -/
def parseHour : Text → Option Hour
  | 'H' :: '2' :: '4' :: '(' :: cs => (parseClosed cs).map .h24
  | 'A' :: 'M' :: '(' :: cs => (parseClosed cs).map .am
  | 'P' :: 'M' :: '(' :: cs => (parseClosed cs).map .pm
  | _ => none

/-- `Low` or `High`. -/
def parseLevel (t : Text) : Option Level :=
  if t = "Low".toList then some .low else if t = "High".toList then some .high else none

/-- The source's spellings of the rates. -/
def parseRate (t : Text) : Option Rate :=
  if t = "1Hz".toList then some .hz1
  else if t = "4.096kHz".toList then some .hz4096
  else if t = "8.192kHz".toList then some .hz8192
  else if t = "32.768kHz".toList then some .hz32768
  else none

/-- The bytes of a list without its brackets. -/
def parseBytes : List Text → Option (List Byte)
  | [] => some []
  | t :: ts =>
    match parseByte (trimmed t), parseBytes ts with
    | some b, some bs => some (b :: bs)
    | _, _ => none

/-- `[d0, d1, ...]`; `[]` is the empty buffer. -/
def parseBuffer (t : Text) : Option (List Byte) :=
  match t with
  | '[' :: cs =>
    if cs.getLast? = some ']' then
      if trimmed cs.dropLast = [] then some [] else parseBytes (splitCommas cs.dropLast)
    else none
  | _ => none

/-- No operand. -/
def noOperand (i : Instr) : List Text → Option Instr
  | [] => some i
  | _ => none

/-- One operand. -/
def oneOperand {α : Type} (parse : Text → Option α) (mk : α → Instr) : List Text → Option Instr
  | [t] => (parse t).map mk
  | _ => none

/-- `read_ram offset, n`. -/
def ramReadOperands : List Text → Option Instr
  | [offset, n] =>
    match parseByte offset, parseByte n with
    | some offset, some n => some (.readRam offset n)
    | _, _ => none
  | _ => none

/-- `write_ram offset, [d0, d1, ...]`: the commas of the list are operand separators too, so that the
list is put together again. DESIGN CHOICE (log 16): R94 takes `n` to be the length of the list and does
not say what a list of more than 255 bytes spells, which no frame can carry (R87); such a line spells no
operation. -/
def ramWriteOperands : List Text → Option Instr
  | offset :: t :: ts =>
    match parseByte offset, parseBuffer (List.intercalate [','] (t :: ts)) with
    | some offset, some d => if d.length ≤ 255 then some (.writeRam offset d) else none
    | _, _ => none
  | _ => none

/-- `set_datetime year, month, day, weekday, hour, minute, second`. -/
def dateTimeOperands : List Text → Option Instr
  | [year, month, day, weekday, hour, minute, second] =>
    match parseHalf year, parseByte month, parseByte day, parseByte weekday, parseHour hour,
      parseByte minute, parseByte second with
    | some year, some month, some day, some weekday, some hour, some minute, some second =>
      some (.setDatetime { year, month, day, weekday, hour, minute, second })
    | _, _, _, _, _, _, _ => none
  | _ => none

/-- The 32 mnemonics of R89, each with the form of its operands. -/
def mnemonics : List (String × (List Text → Option Instr)) :=
  [("decode", oneOperand parseByte .decodeBcd),
    ("encode", oneOperand parseByte .encodeBcd),
    ("decode_hours", oneOperand parseByte .decodeHours),
    ("encode_hours", oneOperand parseHour .encodeHours),
    ("get_seconds", noOperand .getSeconds),
    ("get_minutes", noOperand .getMinutes),
    ("get_hours", noOperand .getHours),
    ("get_weekday", noOperand .getWeekday),
    ("get_day", noOperand .getDay),
    ("get_month", noOperand .getMonth),
    ("get_year", noOperand .getYear),
    ("get_datetime", noOperand .getDatetime),
    ("set_seconds", oneOperand parseByte .setSeconds),
    ("set_minutes", oneOperand parseByte .setMinutes),
    ("set_hours", oneOperand parseHour .setHours),
    ("set_weekday", oneOperand parseByte .setWeekday)] ++
  [("set_day", oneOperand parseByte .setDay),
    ("set_month", oneOperand parseByte .setMonth),
    ("set_year", oneOperand parseHalf .setYear),
    ("set_datetime", dateTimeOperands),
    ("running", noOperand .running),
    ("set_running", noOperand .setRunning),
    ("halt", noOperand .halt),
    ("square_wave_output_enabled", noOperand .squareWaveOutputEnabled),
    ("enable_square_wave_output", noOperand .enableSquareWaveOutput),
    ("disable_square_wave_output", noOperand .disableSquareWaveOutput),
    ("square_wave_output_level", noOperand .squareWaveOutputLevel),
    ("set_square_wave_output_level", oneOperand parseLevel .setSquareWaveOutputLevel),
    ("square_wave_output_rate", noOperand .squareWaveOutputRate),
    ("set_square_wave_output_rate", oneOperand parseRate .setSquareWaveOutputRate),
    ("read_ram", ramReadOperands),
    ("write_ram", ramWriteOperands)]

/-- What a line spells: none if it is no line of R94; `some none` for a blank or comment line;
`some (some i)` for an operation. -/
def assembleLine (line : Text) : Option (Option Instr) :=
  let code := trimmed (line.takeWhile (· != '#'))
  if code = [] then some none
  else
    let name := code.takeWhile (fun c => !isBlank c)
    let rest := trimmed (code.dropWhile (fun c => !isBlank c))
    let operands := if rest = [] then [] else (splitCommas rest).map trimmed
    match mnemonics.find? (fun m => m.1.toList == name) with
    | some m => (m.2 operands).map some
    | none => none

/-- The command bytes of a program, its lines in order (R22: a program is a finite list of operations).
Every operation a line spells is well formed, so the bytes are whole frames (log 16). -/
def assemble : List Text → Option (List Byte)
  | [] => some []
  | line :: lines =>
    match assembleLine line, assemble lines with
    | some none, some bytes => some bytes
    | some (some i), some bytes => some (encode i ++ bytes)
    | _, _ => none

end Sys2Proof.Machine
end

