-- ==== Sys2Proof/Machine/HostPort.lean ====
section
/-! DEFINITION. Response frames on the host port (spec/30_encoding.md R92, R93). -/

namespace Sys2Proof.Machine

/-- The status byte (R92). -/
def Response.status : Response → Byte
  | .ok _ => 0x00
  | .error .invalidInputData => 0x01
  | .error (.transport _) => 0x02

/-- The result bytes of a success value (R93). -/
def Value.resultBytes : Value → List Byte
  | .unit => []
  | .bool b => [if b then 0x01 else 0x00]
  | .u8 v => [v]
  | .u16 v => halfBytes v
  | .hour h => hourBytes h
  | .dateTime dt => dateTimeBytes dt
  | .level l => [levelCode l]
  | .rate r => [rateCode r]
  | .bytes bs => bs

/-- The response frame (R92): status, then the result bytes, nothing, or the transport's error value in
the encoding the transport defines (log 6). -/
def Response.frame (r : Response) : List Byte :=
  r.status ::
    match r with
    | .ok v => v.resultBytes
    | .error .invalidInputData => []
    | .error (.transport e) => Config.transportErrorBytes e

end Sys2Proof.Machine
end

