-- ==== Sys2Proof/Safety.lean ====
section
/-! DEFINITION. What claims are stated in: the invariant of every state, the frames the block may put on
the bus (spec/30_encoding.md R95), the well-formed register file (spec/10_state.md R38), the conditions
and transactions of each operation as the spec's tables list them (spec/60_exceptions.md R211,
spec/70_reset_and_hazards.md R250), and how one operation ends. -/

namespace Sys2Proof.Machine

/-! ## Bus frames and the invariant -/

/-- The addresses and lengths of R95: one register 0x00 to 0x07, the seven time registers, or a span of
the RAM window. -/
def listedSpan (addr n : Nat) : Prop :=
  (addr ≤ 0x07 ∧ n = 1) ∨ (addr = 0x00 ∧ n = 7) ∨ (0x08 ≤ addr ∧ 1 ≤ n ∧ addr + n ≤ 0x40)

/-- A trace event is a frame of R95's list, addressed to `dev`; a successful read brought as many bytes
as it asked for (R51, R52, R53, R95). -/
def listedFrame (dev : BitVec 7) : BusEvent → Prop
  | .rd d wbytes n outcome =>
    d = dev ∧ (∃ addr, wbytes = [BitVec.ofNat 8 addr] ∧ listedSpan addr n) ∧
      ∀ data, outcome = .ok data → data.length = n
  | .wr d bytes _ =>
    d = dev ∧ ∃ addr data, bytes = BitVec.ofNat 8 addr :: data ∧ listedSpan addr data.length

/-- The invariant of every state a run can reach: the register space is canonical, so that only
addresses 0x00 to 0x3F exist (R24), and the trace holds listed frames only (R95). -/
def State.Inv (s : State) : Prop :=
  s.mem.wf = true ∧ ∀ e ∈ s.trace, listedFrame s.params.devAddr e

/-! ## The well-formed register file -/

/-- "Packed BCD of lo to hi" (R38). -/
def packedBcd (lo hi : Nat) (b : Byte) : Prop :=
  highNibble b ≤ 9 ∧ lowNibble b ≤ 9 ∧ lo ≤ bcdValue b ∧ bcdValue b ≤ hi

/-- The clause of `WF` for the seconds byte (R38). -/
def wfSeconds (b : Byte) : Prop := packedBcd 0 59 (b &&& 0x7F)

/-- The clause of `WF` for the hours byte (R38). -/
def wfHours (b : Byte) : Prop :=
  b.getLsbD 7 = false ∧
    ((b.getLsbD 6 = false ∧ packedBcd 0 23 (b &&& 0x3F)) ∨
      (b.getLsbD 6 = true ∧ packedBcd 1 12 (b &&& 0x1F)))

/-- The clause of `WF` for the weekday byte (R38). -/
def wfWeekday (b : Byte) : Prop := 1 ≤ b.toNat ∧ b.toNat ≤ 7

/-- `WF(reg)` (R38). The block never checks it. -/
structure WF (m : Memory) : Prop where
  seconds : wfSeconds (m.get 0x00)
  minutes : packedBcd 0 59 (m.get 0x01)
  hours : wfHours (m.get 0x02)
  weekday : wfWeekday (m.get 0x03)
  day : packedBcd 1 31 (m.get 0x04)
  month : packedBcd 1 12 (m.get 0x05)
  year : packedBcd 0 99 (m.get 0x06)

/-! ## The value encodings as arithmetic

What the codec rules say of the numbers of the bytes, written without the model's own functions. -/

/-- The hour number is in its variant's range: `hour_valid` (R121). -/
def validHour : Hour → Prop
  | .h24 h => h.toNat ≤ 23
  | .am h => 1 ≤ h.toNat ∧ h.toNat ≤ 12
  | .pm h => 1 ≤ h.toNat ∧ h.toNat ≤ 12

/-- `x` is the byte of the hour (R121): BCD; bit 6 (64) for AM and PM, and bit 5 (32) for PM. -/
def encodesHour : Hour → Byte → Prop
  | .h24 h, x => x.toNat = h.toNat / 10 * 16 + h.toNat % 10
  | .am h, x => x.toNat = 64 + (h.toNat / 10 * 16 + h.toNat % 10)
  | .pm h, x => x.toNat = 64 + 32 + (h.toNat / 10 * 16 + h.toNat % 10)

/-- `hour` is what the byte `b` decodes to (R120): bit 6 clear, 24-hour and six bits; bit 6 set, AM or PM
by bit 5 and five bits. -/
def decodesHour (b : Byte) : Hour → Prop
  | .h24 h => b.toNat / 64 % 2 = 0 ∧ h.toNat = b.toNat % 64 / 16 * 10 + b.toNat % 16
  | .am h =>
    b.toNat / 64 % 2 = 1 ∧ b.toNat / 32 % 2 = 0 ∧ h.toNat = b.toNat % 32 / 16 * 10 + b.toNat % 16
  | .pm h =>
    b.toNat / 64 % 2 = 1 ∧ b.toNat / 32 % 2 = 1 ∧ h.toNat = b.toNat % 32 / 16 * 10 + b.toNat % 16

/-- The 48 bytes that `encode_hours` can give (R121): units at most 9, in 0x00 to 0x23, 0x41 to 0x52 or
0x61 to 0x72. -/
def hourImage (b : Byte) : Prop :=
  b.toNat % 16 ≤ 9 ∧
    (b.toNat ≤ 0x23 ∨ (0x41 ≤ b.toNat ∧ b.toNat ≤ 0x52) ∨ (0x61 ≤ b.toNat ∧ b.toNat ≤ 0x72))

/-- The seven ranges of `dt_ranges_ok` (R163). -/
def inRanges (dt : DateTime) : Prop :=
  (2000 ≤ dt.year.toNat ∧ dt.year.toNat ≤ 2099) ∧ (1 ≤ dt.month.toNat ∧ dt.month.toNat ≤ 12) ∧
    (1 ≤ dt.day.toNat ∧ dt.day.toNat ≤ 31) ∧ (1 ≤ dt.weekday.toNat ∧ dt.weekday.toNat ≤ 7) ∧
      validHour dt.hour ∧ dt.minute.toNat ≤ 59 ∧ dt.second.toNat ≤ 59

/-- `dt` is what seven bytes, seconds to year, decode to (R164). -/
def decodesDateTime (bs : List Byte) (dt : DateTime) : Prop :=
  ∃ b0 b1 b2 b3 b4 b5 b6 : Byte, bs = [b0, b1, b2, b3, b4, b5, b6] ∧
    dt.second.toNat = b0.toNat % 128 / 16 * 10 + b0.toNat % 16 ∧
    dt.minute.toNat = b1.toNat / 16 * 10 + b1.toNat % 16 ∧ decodesHour b2 dt.hour ∧
    dt.weekday = b3 ∧ dt.day.toNat = b4.toNat / 16 * 10 + b4.toNat % 16 ∧
    dt.month.toNat = b5.toNat / 16 * 10 + b5.toNat % 16 ∧
    dt.year.toNat = 2000 + (b6.toNat / 16 * 10 + b6.toNat % 16)

/-- `bs` is the seven-byte image of `dt`, seconds to year, with the halt bit of `r0` (R164). -/
def imagesDateTime (r0 : Byte) (dt : DateTime) (bs : List Byte) : Prop :=
  ∃ b0 b1 b2 b3 b4 b5 b6 : Byte, bs = [b0, b1, b2, b3, b4, b5, b6] ∧
    b0.toNat = r0.toNat / 128 * 128 + (dt.second.toNat / 10 * 16 + dt.second.toNat % 10) ∧
    b1.toNat = dt.minute.toNat / 10 * 16 + dt.minute.toNat % 10 ∧ encodesHour dt.hour b2 ∧
    b3 = dt.weekday ∧ b4.toNat = dt.day.toNat / 10 * 16 + dt.day.toNat % 10 ∧
    b5.toNat = dt.month.toNat / 10 * 16 + dt.month.toNat % 10 ∧
    b6.toNat = (dt.year.toNat - 2000) / 10 * 16 + (dt.year.toNat - 2000) % 10

/-! ## The environment as a claim sees it -/

/-- The value the transport's answer fails with, if it fails (R65). -/
def answerFailure : Answer → Option TransportError
  | .ok => none
  | .fail e => some e
  | .never => none

/-- The transport answers the next two transactions. -/
def State.answered (s : State) : Prop :=
  (s.turnAt 0).answer ≠ .never ∧ (s.turnAt 1).answer ≠ .never

/-- The transport answers `ok` to the next two transactions. -/
def State.answeredOk (s : State) : Prop :=
  (s.turnAt 0).answer = .ok ∧ (s.turnAt 1).answer = .ok

/-! ## What a memory holds after an operation -/

/-- Every register reads in `m'` as in `m`. -/
def sameRegs (m m' : Memory) : Prop := ∀ x, m'.get x = m.get x

/-- `m'` is `m` with `data` at consecutive addresses from `a`; every other register reads as before. -/
def writtenOver (m : Memory) (a : Nat) (data : List Byte) (m' : Memory) : Prop :=
  ∀ x, m'.get x = if a ≤ x ∧ x < a + data.length then data.getD (x - a) 0 else m.get x

/-- `m'` is `m` after a failed write of `n` bytes at `a` (R53): registers outside the span read as
before; under `unchanged` so do those inside, and under `havocAddressed` those are open. -/
def failedOver (eff : WriteFailEffect) (m : Memory) (a n : Nat) (m' : Memory) : Prop :=
  (∀ x, ¬ (a ≤ x ∧ x < a + n) → m'.get x = m.get x) ∧ (eff = .unchanged → sameRegs m m')

/-! ## How an operation ends -/

/-- From `s` to `t` exactly one response was delivered, `r` (R92). -/
def delivered (s t : State) (r : Response) : Prop := t.output = s.output ++ [r]

/-- From `s` to `t` exactly these transactions were recorded, in this order (R36). -/
def issued (s t : State) (events : List BusEvent) : Prop := t.trace = s.trace ++ events

/-- Operation `i` in state `s` ends in a next state with `used` turns used up, `events` appended to the
trace, one response `r`, and a register space that satisfies `mems`. Parameters, presented bytes and the
port are as before (the frame of every operation, R34, R213, R219). -/
def Completes (i : Instr) (s : State) (used : Nat) (events : List BusEvent) (r : Response)
    (mems : Memory → Prop) : Prop :=
  ∃ t, exec i s = .next t ∧ t.output = s.output ++ [r] ∧ t.trace = s.trace ++ events ∧ mems t.mem ∧
    t.params = s.params ∧ t.input = s.input ∧ t.port = s.port ∧ t.turns = s.turns.drop used ∧
    t.draws = s.draws + used

/-- Operation `i` in state `s` waits for ever on a transaction: no response, `events` before it, the
port held (R65, U18). -/
def Hangs (i : Instr) (s : State) (used : Nat) (events : List BusEvent) (mems : Memory → Prop) : Prop :=
  ∃ t, exec i s = .next t ∧ t.output = s.output ∧ t.trace = s.trace ++ events ∧ mems t.mem ∧
    t.params = s.params ∧ t.input = s.input ∧ t.port = .hung ∧ t.turns = s.turns.drop used ∧
    t.draws = s.draws + used

/-- The bytes are the command frame of `i`: the encoder gives them, and the decoder reads them as `i`
whatever follows (R81, R89, R90). -/
def SpelledBy (i : Instr) (bytes : List Byte) : Prop :=
  encode i = bytes ∧ ∀ rest, decodeFrame (bytes ++ rest) = .ok (i, rest)

/-- `i` is rejected with `InvalidInputData`: no transaction, no register changed (R131, R213). -/
def Rejects (i : Instr) : Prop :=
  ∀ s, Completes i s 0 [] (.error .invalidInputData) (sameRegs s.mem)

/-- `i` succeeds with `v` and issues no transaction. -/
def Answers (i : Instr) (v : Value) : Prop := ∀ s, Completes i s 0 [] (.ok v) (sameRegs s.mem)

/-- `RD(DEV_ADDR, [addr], n, outcome)` (R52). -/
def rdAt (s : State) (addr n : Nat) (outcome : ReadOutcome) : BusEvent :=
  .rd s.params.devAddr [BitVec.ofNat 8 addr] n outcome

/-- `WR(DEV_ADDR, [addr] ++ data, outcome)` (R53). -/
def wrAt (s : State) (addr : Nat) (data : List Byte) (outcome : WriteOutcome) : BusEvent :=
  .wr s.params.devAddr (BitVec.ofNat 8 addr :: data) outcome

/-- `i` is exactly one read of `n` registers from `addr`, whose bytes give the response `f`, which may
depend on the parameters: read answered `ok`, or failed with `e`. No register is changed. -/
def ReadsOnly (i : Instr) (addr n : Nat) (f : Params → List Byte → Response) : Prop :=
  ∀ s, ((s.turnAt 0).answer = .ok → ∀ bs, bs = (s.busMem 0).readSpan addr n →
      Completes i s 1 [rdAt s addr n (.ok bs)] (f s.params bs) (sameRegs (s.busMem 0))) ∧
    (∀ e, (s.turnAt 0).answer = .fail e →
      Completes i s 1 [rdAt s addr n (.fail e)] (.error (.transport e)) (sameRegs (s.busMem 0)))

/-- `i` is exactly one read of register `a`, whose byte `r` gives the success value `f r`. -/
def Queries (i : Instr) (a : Nat) (f : Byte → Value) : Prop :=
  ∀ s, ((s.turnAt 0).answer = .ok → ∀ r, r = (s.busMem 0).get a →
      Completes i s 1 [rdAt s a 1 (.ok [r])] (.ok (f r)) (sameRegs (s.busMem 0))) ∧
    (∀ e, (s.turnAt 0).answer = .fail e →
      Completes i s 1 [rdAt s a 1 (.fail e)] (.error (.transport e)) (sameRegs (s.busMem 0)))

/-- `i` is exactly one write of `data` at `addr`: write answered `ok`, or failed with `e`. -/
def WritesOnly (i : Instr) (addr : Nat) (data : List Byte) : Prop :=
  ∀ s, ((s.turnAt 0).answer = .ok →
      Completes i s 1 [wrAt s addr data .ok] (.ok .unit) (writtenOver (s.busMem 0) addr data)) ∧
    (∀ e, (s.turnAt 0).answer = .fail e →
      Completes i s 1 [wrAt s addr data (.fail e)] (.error (.transport e))
        (failedOver s.params.writeFailEffect (s.busMem 0) addr data.length))

/-- `i` is one read of register `a`, then, if `f` of the byte read gives bytes, one write of those bytes
at `a`; if it gives none, no write and success (R170). Every answer of the transport is covered: a
failed read is followed by no write. The write stores what was computed from the byte read, whatever
the timekeeper did meanwhile (R35, R247). -/
def ReadsThenWrites (i : Instr) (a : Nat) (f : Byte → Option (List Byte)) : Prop :=
  ∀ s r, r = (s.busMem 0).get a →
    ((s.turnAt 0).answer = .ok → f r = none →
      Completes i s 1 [rdAt s a 1 (.ok [r])] (.ok .unit) (sameRegs (s.busMem 0))) ∧
    (∀ data, (s.turnAt 0).answer = .ok → f r = some data → (s.turnAt 1).answer = .ok →
      Completes i s 2 [rdAt s a 1 (.ok [r]), wrAt s a data .ok] (.ok .unit)
        (writtenOver (s.busMem 1) a data)) ∧
    (∀ e, (s.turnAt 0).answer = .fail e →
      Completes i s 1 [rdAt s a 1 (.fail e)] (.error (.transport e)) (sameRegs (s.busMem 0))) ∧
    (∀ data e, (s.turnAt 0).answer = .ok → f r = some data → (s.turnAt 1).answer = .fail e →
      Completes i s 2 [rdAt s a 1 (.ok [r]), wrAt s a data (.fail e)] (.error (.transport e))
        (failedOver s.params.writeFailEffect (s.busMem 1) a data.length))

/-- The transport's error value that a response carries, if it is a transport error (R212). -/
def Response.failure : Response → Option TransportError
  | .ok _ => none
  | .error .invalidInputData => none
  | .error (.transport e) => some e

/-- The value a recorded read failed with. -/
def ReadOutcome.failure : ReadOutcome → Option TransportError
  | .ok _ => none
  | .fail e => some e

/-- The value a recorded write failed with. -/
def WriteOutcome.failure : WriteOutcome → Option TransportError
  | .ok => none
  | .fail e => some e

/-- The value a recorded transaction failed with (R36). -/
def BusEvent.failure : BusEvent → Option TransportError
  | .rd _ _ _ o => o.failure
  | .wr _ _ o => o.failure

/-- The bits of register `a` that the timekeeper may change (R64). -/
def timekeeperBits (k : Timekeeper) (a : Nat) : Byte :=
  match k with
  | .frozen => 0x00
  | .free => if a = 0x00 then 0x7F else if a ≤ 0x06 then 0xFF else 0x00

/-- What the free timekeeper never changes: `CH`, REG_SQW and the RAM window (R64). -/
def timekeeperKeeps (m m' : Memory) : Prop :=
  (m'.get 0x00).getLsbD 7 = (m.get 0x00).getLsbD 7 ∧ ∀ a, 0x07 ≤ a → m'.get a = m.get a

/-- The first transaction of an operation: a read of `n` registers, or a write of bytes. -/
inductive Request where
  | read (addr n : Nat)
  | write (addr : Nat) (data : List Byte)
deriving DecidableEq, Repr

end Sys2Proof.Machine

/-! ## The spec's tables -/

namespace Sys2Proof

open Machine

/-- The operands that raise `InvalidInputData` before any transaction, as the table after R211 lists them
(all its rows but that of `get_datetime`, whose check is on what was read). -/
def Instr.rejected : Instr → Prop
  | .decodeBcd _ => False
  | .encodeBcd _ => False
  | .decodeHours _ => False
  | .encodeHours hour => ¬ validHour hour
  | .getSeconds => False
  | .getMinutes => False
  | .getHours => False
  | .getWeekday => False
  | .getDay => False
  | .getMonth => False
  | .getYear => False
  | .getDatetime => False
  | .setSeconds v => v.toNat > 59
  | .setMinutes v => v.toNat > 59
  | .setHours hour => ¬ validHour hour
  | .setWeekday v => v.toNat = 0 ∨ v.toNat > 7
  | .setDay v => v.toNat = 0 ∨ v.toNat > 31
  | .setMonth v => v.toNat = 0 ∨ v.toNat > 12
  | .setYear v => v.toNat < 2000 ∨ v.toNat > 2099
  | .setDatetime dt => ¬ inRanges dt
  | .running => False
  | .setRunning => False
  | .halt => False
  | .squareWaveOutputEnabled => False
  | .enableSquareWaveOutput => False
  | .disableSquareWaveOutput => False
  | .squareWaveOutputLevel => False
  | .setSquareWaveOutputLevel _ => False
  | .squareWaveOutputRate => False
  | .setSquareWaveOutputRate _ => False
  | .readRam offset n => 1 ≤ n.toNat ∧ (offset.toNat ≥ 56 ∨ offset.toNat + n.toNat > 56)
  | .writeRam offset d => 1 ≤ d.length ∧ (offset.toNat ≥ 56 ∨ offset.toNat + d.length > 56)

/-- The first transaction that an operation with an admitted operand issues, by the table after R250;
none for the codec and for an empty RAM buffer. -/
def Instr.firstRequest : Instr → Option Request
  | .decodeBcd _ => none
  | .encodeBcd _ => none
  | .decodeHours _ => none
  | .encodeHours _ => none
  | .getSeconds => some (.read 0x00 1)
  | .getMinutes => some (.read 0x01 1)
  | .getHours => some (.read 0x02 1)
  | .getWeekday => some (.read 0x03 1)
  | .getDay => some (.read 0x04 1)
  | .getMonth => some (.read 0x05 1)
  | .getYear => some (.read 0x06 1)
  | .getDatetime => some (.read 0x00 7)
  | .setSeconds _ => some (.read 0x00 1)
  | .setMinutes v => some (.write 0x01 [bcdEncode v])
  | .setHours hour => some (.write 0x02 [hourByte hour])
  | .setWeekday v => some (.write 0x03 [v])
  | .setDay v => some (.write 0x04 [bcdEncode v])
  | .setMonth v => some (.write 0x05 [bcdEncode v])
  | .setYear v => some (.write 0x06 [yearByte v])
  | .setDatetime _ => some (.read 0x00 1)
  | .running => some (.read 0x00 1)
  | .setRunning => some (.read 0x00 1)
  | .halt => some (.read 0x00 1)
  | .squareWaveOutputEnabled => some (.read 0x07 1)
  | .enableSquareWaveOutput => some (.read 0x07 1)
  | .disableSquareWaveOutput => some (.read 0x07 1)
  | .squareWaveOutputLevel => some (.read 0x07 1)
  | .setSquareWaveOutputLevel _ => some (.read 0x07 1)
  | .squareWaveOutputRate => some (.read 0x07 1)
  | .setSquareWaveOutputRate _ => some (.read 0x07 1)
  | .readRam offset n => if n.toNat = 0 then none else some (.read (0x08 + offset.toNat) n.toNat)
  | .writeRam offset d => if d.length = 0 then none else some (.write (0x08 + offset.toNat) d)

/-- The registers an operation may write, by the "Written by" lines of R25 to R33 (R34: "No operation
ever writes a register other than the ones its rule names"). -/
def Instr.mayWrite : Instr → Nat → Prop
  | .decodeBcd _, _ => False
  | .encodeBcd _, _ => False
  | .decodeHours _, _ => False
  | .encodeHours _, _ => False
  | .getSeconds, _ => False
  | .getMinutes, _ => False
  | .getHours, _ => False
  | .getWeekday, _ => False
  | .getDay, _ => False
  | .getMonth, _ => False
  | .getYear, _ => False
  | .getDatetime, _ => False
  | .setSeconds _, a => a = 0x00
  | .setMinutes _, a => a = 0x01
  | .setHours _, a => a = 0x02
  | .setWeekday _, a => a = 0x03
  | .setDay _, a => a = 0x04
  | .setMonth _, a => a = 0x05
  | .setYear _, a => a = 0x06
  | .setDatetime _, a => a ≤ 0x06
  | .running, _ => False
  | .setRunning, a => a = 0x00
  | .halt, a => a = 0x00
  | .squareWaveOutputEnabled, _ => False
  | .enableSquareWaveOutput, a => a = 0x07
  | .disableSquareWaveOutput, a => a = 0x07
  | .squareWaveOutputLevel, _ => False
  | .setSquareWaveOutputLevel _, a => a = 0x07
  | .squareWaveOutputRate, _ => False
  | .setSquareWaveOutputRate _, a => a = 0x07
  | .readRam _ _, _ => False
  | .writeRam offset d, a =>
    0x08 + offset.toNat ≤ a ∧ a < 0x08 + offset.toNat + d.length ∧ a ≤ 0x3F

/-- The bits of register `a` that an operation owns: those its rule gives it to change (R34). An
operation that writes a register without reading it owns all eight; every other bit, with or without a
meaning, is written as read. -/
def Instr.ownedBits : Instr → Nat → Byte
  | .decodeBcd _, _ => 0x00
  | .encodeBcd _, _ => 0x00
  | .decodeHours _, _ => 0x00
  | .encodeHours _, _ => 0x00
  | .getSeconds, _ => 0x00
  | .getMinutes, _ => 0x00
  | .getHours, _ => 0x00
  | .getWeekday, _ => 0x00
  | .getDay, _ => 0x00
  | .getMonth, _ => 0x00
  | .getYear, _ => 0x00
  | .getDatetime, _ => 0x00
  | .setSeconds _, a => if a = 0x00 then 0x7F else 0x00
  | .setMinutes _, a => if a = 0x01 then 0xFF else 0x00
  | .setHours _, a => if a = 0x02 then 0xFF else 0x00
  | .setWeekday _, a => if a = 0x03 then 0xFF else 0x00
  | .setDay _, a => if a = 0x04 then 0xFF else 0x00
  | .setMonth _, a => if a = 0x05 then 0xFF else 0x00
  | .setYear _, a => if a = 0x06 then 0xFF else 0x00
  | .setDatetime _, a => if a = 0x00 then 0x7F else if a ≤ 0x06 then 0xFF else 0x00
  | .running, _ => 0x00
  | .setRunning, a => if a = 0x00 then 0x80 else 0x00
  | .halt, a => if a = 0x00 then 0x80 else 0x00
  | .squareWaveOutputEnabled, _ => 0x00
  | .enableSquareWaveOutput, a => if a = 0x07 then 0x10 else 0x00
  | .disableSquareWaveOutput, a => if a = 0x07 then 0x10 else 0x00
  | .squareWaveOutputLevel, _ => 0x00
  | .setSquareWaveOutputLevel _, a => if a = 0x07 then 0x80 else 0x00
  | .squareWaveOutputRate, _ => 0x00
  | .setSquareWaveOutputRate _, a => if a = 0x07 then 0x03 else 0x00
  | .readRam _ _, _ => 0x00
  | .writeRam offset d, a =>
    if 0x08 + offset.toNat ≤ a ∧ a < 0x08 + offset.toNat + d.length ∧ a ≤ 0x3F then 0xFF else 0x00

end Sys2Proof
end

