-- ==== Sys2Proof/Certificates/Slice0/Obligations.lean ====
section
/-! DEFINITION. The statements for the provers. An instruction's statement gives its frame (`SpelledBy`),
its transactions, its response and, through `Completes`, everything it leaves unchanged, for every answer of
the transport that ends it. What a failed write leaves is the parameter WRITE_FAIL_EFFECT (R53, D10). -/

section

open Sys2Proof Sys2Proof.Machine

/-! ## Codec -/

/-- R110: `decode` gives high nibble times ten plus low nibble, for every byte, without a transaction. -/
def Obligations.DecodeGivesTensAndUnits : Prop :=
  ∀ b : Byte, SpelledBy (.decodeBcd b) [0x00, b] ∧
    ∃ v : Byte, v.toNat = b.toNat / 16 * 10 + b.toNat % 16 ∧ Answers (.decodeBcd b) (.u8 v)

/-- R111: `encode` gives tens and units in two nibbles. Above 99 the low 8 bits are kept: the spec's own
decision D12. -/
def Obligations.EncodePacksTensAndUnits : Prop :=
  ∀ d : Byte, SpelledBy (.encodeBcd d) [0x01, d] ∧
    ∃ x : Byte, x.toNat = (d.toNat / 10 * 16 + d.toNat % 10) % 256 ∧ Answers (.encodeBcd d) (.u8 x)

/-- R112: the round trips (a) and (b), the image (c) and bit 7 (d) of the codec; (b) to (d) are marked by
the spec as derived. -/
def Obligations.CodecRoundTrips : Prop :=
  (∀ d : Byte, d.toNat ≤ 99 → ∃ x, Answers (.encodeBcd d) (.u8 x) ∧ Answers (.decodeBcd x) (.u8 d) ∧
    x.toNat / 16 ≤ 9 ∧ x.toNat % 16 ≤ 9) ∧
  (∀ b : Byte, b.toNat / 16 ≤ 9 → b.toNat % 16 ≤ 9 →
    ∃ d : Byte, d.toNat ≤ 99 ∧ Answers (.decodeBcd b) (.u8 d) ∧ Answers (.encodeBcd d) (.u8 b)) ∧
  (∀ d x : Byte, d.toNat ≤ 79 → Answers (.encodeBcd d) (.u8 x) → x.toNat < 128)

/-- R120: `decode_hours` by bit 6 and bit 5. That bit 7 is ignored is the spec's own decision D11. -/
def Obligations.DecodeHoursByModeBits : Prop :=
  ∀ b : Byte, SpelledBy (.decodeHours b) [0x02, b] ∧
    ∃ hour, decodesHour b hour ∧ Answers (.decodeHours b) (.hour hour)

/-- R121: `encode_hours` checks the range and encodes. That its image is exactly 48 bytes, all below 0x80,
is an inference R121 marks as its own: "[derived: from the pseudocode]". -/
def Obligations.EncodeHoursChecksAndEncodes : Prop :=
  (∀ h : Byte, SpelledBy (.encodeHours (.h24 h)) [0x03, 0x00, h] ∧
    SpelledBy (.encodeHours (.am h)) [0x03, 0x01, h] ∧
    SpelledBy (.encodeHours (.pm h)) [0x03, 0x02, h]) ∧
  (∀ hour, validHour hour → ∃ x, encodesHour hour x ∧ Answers (.encodeHours hour) (.u8 x)) ∧
  (∀ hour, ¬ validHour hour → Rejects (.encodeHours hour)) ∧
  (∀ x : Byte, (∃ hour, Answers (.encodeHours hour) (.u8 x)) ↔ hourImage x)

/-- R122: every valid hour is read back; on the 48 bytes of the image decoding and encoding give the byte
back, and on no other byte. -/
def Obligations.HoursRoundTrip : Prop :=
  (∀ hour, validHour hour →
    ∃ x, Answers (.encodeHours hour) (.u8 x) ∧ Answers (.decodeHours x) (.hour hour)) ∧
  (∀ b, hourImage b →
    ∃ hour, Answers (.decodeHours b) (.hour hour) ∧ Answers (.encodeHours hour) (.u8 b)) ∧
  (∀ b, ¬ hourImage b → ∃ hour, Answers (.decodeHours b) (.hour hour) ∧
    (Rejects (.encodeHours hour) ∨ ∃ x, x ≠ b ∧ Answers (.encodeHours hour) (.u8 x)))

/-! ## Field accessors -/

/-- R132: `get_seconds` is one read of 0x00; bits 6:0 decoded, the halt bit stripped. -/
def Obligations.GetSecondsStripsHaltBit : Prop :=
  SpelledBy .getSeconds [0x10] ∧ ∃ f : Byte → Byte, Queries .getSeconds 0x00 (fun r => .u8 (f r)) ∧
    ∀ r, (f r).toNat = r.toNat % 128 / 16 * 10 + r.toNat % 16

/-- R134, R140, R142: each is one read of its register, the whole byte decoded, nothing checked. -/
def Obligations.GetMinutesDayMonthDecodeTheirRegister : Prop :=
  SpelledBy .getMinutes [0x11] ∧ SpelledBy .getDay [0x14] ∧ SpelledBy .getMonth [0x15] ∧
  ∃ f : Byte → Byte, Queries .getMinutes 0x01 (fun r => .u8 (f r)) ∧
    Queries .getDay 0x04 (fun r => .u8 (f r)) ∧ Queries .getMonth 0x05 (fun r => .u8 (f r)) ∧
    ∀ r, (f r).toNat = r.toNat / 16 * 10 + r.toNat % 16

/-- R136: `get_hours` is one read of 0x02; the variant follows the chip's mode bit. -/
def Obligations.GetHoursFollowsModeBit : Prop :=
  SpelledBy .getHours [0x12] ∧ ∃ f : Byte → Hour, Queries .getHours 0x02 (fun r => .hour (f r)) ∧
    ∀ r, decodesHour r (f r)

/-- R138: `get_weekday` returns the byte as it is. That no bit is masked is the spec's own decision D20. -/
def Obligations.GetWeekdayReturnsTheByte : Prop :=
  SpelledBy .getWeekday [0x13] ∧ Queries .getWeekday 0x03 (fun r => .u8 r)

/-- R144: `get_year` is 2000 plus the decoded byte, in 16 bits. -/
def Obligations.GetYearAddsBase : Prop :=
  SpelledBy .getYear [0x16] ∧ ∃ f : Byte → Half, Queries .getYear 0x06 (fun r => .u16 (f r)) ∧
    ∀ r, (f r).toNat = 2000 + (r.toNat / 16 * 10 + r.toNat % 16)

/-- R133: `set_seconds` rejects above 59; otherwise one read, then one write of the halt bit as read with
the new seconds. -/
def Obligations.SetSecondsKeepsHaltBit : Prop :=
  ∀ v : Byte, SpelledBy (.setSeconds v) [0x20, v] ∧
    (v.toNat ≤ 59 → ∃ x : Byte → Byte, ReadsThenWrites (.setSeconds v) 0x00 (fun r => some [x r]) ∧
      ∀ r, (x r).toNat = r.toNat / 128 * 128 + (v.toNat / 10 * 16 + v.toNat % 10)) ∧
    (v.toNat > 59 → Rejects (.setSeconds v))

/-- R135, R139, R141, R143: the whole-register setters of minutes, weekday, day and month: in range, one
write and no read; out of range, rejected. The weekday is a plain integer. -/
def Obligations.SetMinutesWeekdayDayMonth : Prop :=
  ∀ v : Byte,
    SpelledBy (.setMinutes v) [0x21, v] ∧ SpelledBy (.setWeekday v) [0x23, v] ∧
    SpelledBy (.setDay v) [0x24, v] ∧ SpelledBy (.setMonth v) [0x25, v] ∧
    (v.toNat ≤ 59 → ∃ x : Byte, x.toNat = v.toNat / 10 * 16 + v.toNat % 10 ∧
      WritesOnly (.setMinutes v) 0x01 [x]) ∧
    (v.toNat > 59 → Rejects (.setMinutes v)) ∧
    (1 ≤ v.toNat ∧ v.toNat ≤ 7 → WritesOnly (.setWeekday v) 0x03 [v]) ∧
    (v.toNat = 0 ∨ v.toNat > 7 → Rejects (.setWeekday v)) ∧
    (1 ≤ v.toNat ∧ v.toNat ≤ 31 → ∃ x : Byte, x.toNat = v.toNat / 10 * 16 + v.toNat % 10 ∧
      WritesOnly (.setDay v) 0x04 [x]) ∧
    (v.toNat = 0 ∨ v.toNat > 31 → Rejects (.setDay v)) ∧
    (1 ≤ v.toNat ∧ v.toNat ≤ 12 → ∃ x : Byte, x.toNat = v.toNat / 10 * 16 + v.toNat % 10 ∧
      WritesOnly (.setMonth v) 0x05 [x]) ∧
    (v.toNat = 0 ∨ v.toNat > 12 → Rejects (.setMonth v))

/-- R137: `set_hours` writes all eight bits of 0x02, or rejects an hour that is not valid. -/
def Obligations.SetHoursWritesVariant : Prop :=
  (∀ h : Byte, SpelledBy (.setHours (.h24 h)) [0x22, 0x00, h] ∧
    SpelledBy (.setHours (.am h)) [0x22, 0x01, h] ∧ SpelledBy (.setHours (.pm h)) [0x22, 0x02, h]) ∧
  (∀ hour, validHour hour → ∃ x, encodesHour hour x ∧ WritesOnly (.setHours hour) 0x02 [x]) ∧
  (∀ hour, ¬ validHour hour → Rejects (.setHours hour))

/-- R145: `set_year` takes the absolute year, low byte first in its frame, and writes BCD of the year less
2000; outside 2000 to 2099 it rejects. -/
def Obligations.SetYearWritesOffset : Prop :=
  (∀ lo hi : Byte, SpelledBy (.setYear (BitVec.ofNat 16 (lo.toNat + 256 * hi.toNat))) [0x26, lo, hi]) ∧
  ∀ v : Half,
    (2000 ≤ v.toNat ∧ v.toNat ≤ 2099 → ∃ x : Byte,
      x.toNat = (v.toNat - 2000) / 10 * 16 + (v.toNat - 2000) % 10 ∧ WritesOnly (.setYear v) 0x06 [x]) ∧
    (v.toNat < 2000 ∨ v.toNat > 2099 → Rejects (.setYear v))

/-- R146: a field's single setter writes the very byte that `set_datetime` writes at its register, given
the same byte read from 0x00; and `get_datetime` decodes each field as its single getter does. -/
def Obligations.CombinedAndSingleAccessorsAgree : Prop :=
  (∀ dt, inRanges dt → ∃ f : Byte → List Byte,
    ReadsThenWrites (.setDatetime dt) 0x00 (fun r => some (f r)) ∧
    ∀ r, ∃ b0 b1 b2 b3 b4 b5 b6 : Byte, f r = [b0, b1, b2, b3, b4, b5, b6] ∧
      (∃ x : Byte → Byte, ReadsThenWrites (.setSeconds dt.second) 0x00 (fun q => some [x q]) ∧
        x r = b0) ∧
      WritesOnly (.setMinutes dt.minute) 0x01 [b1] ∧ WritesOnly (.setHours dt.hour) 0x02 [b2] ∧
      WritesOnly (.setWeekday dt.weekday) 0x03 [b3] ∧ WritesOnly (.setDay dt.day) 0x04 [b4] ∧
      WritesOnly (.setMonth dt.month) 0x05 [b5] ∧ WritesOnly (.setYear dt.year) 0x06 [b6]) ∧
  ∃ (fs fmi fw fd fmo : Byte → Byte) (fh : Byte → Hour) (fy : Byte → Half),
    Queries .getSeconds 0x00 (fun r => .u8 (fs r)) ∧ Queries .getMinutes 0x01 (fun r => .u8 (fmi r)) ∧
    Queries .getHours 0x02 (fun r => .hour (fh r)) ∧ Queries .getWeekday 0x03 (fun r => .u8 (fw r)) ∧
    Queries .getDay 0x04 (fun r => .u8 (fd r)) ∧ Queries .getMonth 0x05 (fun r => .u8 (fmo r)) ∧
    Queries .getYear 0x06 (fun r => .u16 (fy r)) ∧
    ∃ f : Params → List Byte → Response, ReadsOnly .getDatetime 0x00 7 f ∧
      ∀ p b0 b1 b2 b3 b4 b5 b6 dt, f p [b0, b1, b2, b3, b4, b5, b6] = .ok (.dateTime dt) →
        dt = ⟨fy b6, fmo b5, fd b4, fw b3, fh b2, fmi b1, fs b0⟩

/-! ## Date-time -/

/-- R160: `get_datetime` is one read of seven bytes at 0x00, whatever the outcome; the decoded value is
returned if it passes the calendar check and rejected otherwise. The check is the parameter CAL_SANE, the
spec's own decision D14. -/
def Obligations.GetDatetimeReadsDecodesChecks : Prop :=
  SpelledBy .getDatetime [0x17] ∧ ∃ f : Params → List Byte → Response,
    ReadsOnly .getDatetime 0x00 7 f ∧
    ∀ p bs, bs.length = 7 → ∃ dt, decodesDateTime bs dt ∧
      (calSane p.calSane dt = true → f p bs = .ok (.dateTime dt)) ∧
      (calSane p.calSane dt = false → f p bs = .error .invalidInputData)

/-- R161: `set_datetime` checks the seven ranges before any transaction; then one read of 0x00 and one
write of the seven bytes with the halt bit as read. That the calendar check is not applied is the spec's
own decision D14, as R161 marks it (log 19). -/
def Obligations.SetDatetimeWritesSevenBytes : Prop :=
  (∀ (lo hi h : Byte) (dt : DateTime), dt.year = BitVec.ofNat 16 (lo.toNat + 256 * hi.toNat) →
    (dt.hour = .h24 h → SpelledBy (.setDatetime dt)
      [0x27, lo, hi, dt.month, dt.day, dt.weekday, 0x00, h, dt.minute, dt.second]) ∧
    (dt.hour = .am h → SpelledBy (.setDatetime dt)
      [0x27, lo, hi, dt.month, dt.day, dt.weekday, 0x01, h, dt.minute, dt.second]) ∧
    (dt.hour = .pm h → SpelledBy (.setDatetime dt)
      [0x27, lo, hi, dt.month, dt.day, dt.weekday, 0x02, h, dt.minute, dt.second])) ∧
  (∀ dt, inRanges dt → ∃ f : Byte → List Byte,
    ReadsThenWrites (.setDatetime dt) 0x00 (fun r => some (f r)) ∧ ∀ r, imagesDateTime r dt (f r)) ∧
  (∀ dt, ¬ inRanges dt → Rejects (.setDatetime dt))

/-- R163: `dt_ranges_ok` is exactly the seven ranges; the day is not compared with the month. -/
def Obligations.DtRangesOkIsTheSevenRanges : Prop :=
  ∀ dt, dtRangesOk dt = true ↔
    (2000 ≤ dt.year.toNat ∧ dt.year.toNat ≤ 2099) ∧ (1 ≤ dt.month.toNat ∧ dt.month.toNat ≤ 12) ∧
    (1 ≤ dt.day.toNat ∧ dt.day.toNat ≤ 31) ∧ (1 ≤ dt.weekday.toNat ∧ dt.weekday.toNat ≤ 7) ∧
    (match dt.hour with
      | .h24 h => h.toNat ≤ 23
      | .am h => 1 ≤ h.toNat ∧ h.toNat ≤ 12
      | .pm h => 1 ≤ h.toNat ∧ h.toNat ≤ 12) ∧
    dt.minute.toNat ≤ 59 ∧ dt.second.toNat ≤ 59

/-- R164: the seven-byte image and its decoding. That decoding the image of a date-time in range gives it
back is an inference R164 marks as its own: derived from R112 and R122. -/
def Obligations.DateTimeImageRoundTrip : Prop :=
  (∀ r0 dt, inRanges dt →
    imagesDateTime r0 dt (dtPayload r0 dt) ∧ dtDecode (dtPayload r0 dt) = dt) ∧
  ∀ bs : List Byte, bs.length = 7 → decodesDateTime bs (dtDecode bs)

/-- R162 (the spec's own decision D14): every admissible check implies the ranges; the two named instances
are as given, and the weekday has no part in them. -/
def Obligations.CalendarChecks : Prop :=
  (∀ c dt, calSane c dt = true → inRanges dt) ∧
  (∀ dt, calSane .range dt = true ↔ inRanges dt) ∧
  (∀ dt, calSane .gregorian dt = true ↔ inRanges dt ∧
    dt.day.toNat ≤
      if dt.month.toNat = 2 then (if dt.year.toNat % 4 = 0 then 29 else 28)
      else if dt.month.toNat = 4 ∨ dt.month.toNat = 6 ∨ dt.month.toNat = 9 ∨ dt.month.toNat = 11 then 30
      else 31)

/-- From R161, R160, R164: under a frozen timekeeper and with every transaction answered, a date-time in
range that passes the calendar check is read back as it was set. -/
def Obligations.SetThenGetDatetime : Prop :=
  ∀ (s : State) (dt : DateTime), inRanges dt → calSane s.params.calSane dt = true →
    s.params.timekeeper = .frozen → (s.turnAt 0).answer = .ok → (s.turnAt 1).answer = .ok → (s.turnAt 2).answer = .ok →
    ∃ t u, exec (.setDatetime dt) s = .next t ∧ exec .getDatetime t = .next u ∧
      u.output = s.output ++ [.ok .unit, .ok (.dateTime dt)]

/-! ## Oscillator -/

/-- R171: `running` is one read of 0x00; true exactly when bit 7 is clear. -/
def Obligations.RunningReadsHaltBit : Prop :=
  SpelledBy .running [0x30] ∧ ∃ f : Byte → Bool, Queries .running 0x00 (fun r => .bool (f r)) ∧
    ∀ r, f r = true ↔ r.toNat < 128

/-- R172, R173: `set_running` clears and `halt` sets bit 7 of 0x00 and changes no other bit; no write when
the bit already is so. -/
def Obligations.SetRunningAndHaltChangeHaltBit : Prop :=
  SpelledBy .setRunning [0x31] ∧ SpelledBy .halt [0x32] ∧
  (∃ f : Byte → Option (List Byte), ReadsThenWrites .setRunning 0x00 f ∧ ∀ r,
    (r.toNat < 128 → f r = none) ∧
    (128 ≤ r.toNat → ∃ x : Byte, f r = some [x] ∧ x.toNat = r.toNat - 128)) ∧
  (∃ f : Byte → Option (List Byte), ReadsThenWrites .halt 0x00 f ∧ ∀ r,
    (128 ≤ r.toNat → f r = none) ∧
    (r.toNat < 128 → ∃ x : Byte, f r = some [x] ∧ x.toNat = r.toNat + 128))

/-! ## Square wave -/

/-- R180, R185: one read of 0x07 each; bit 4 is the enable flag, bits 1:0 the rate's code. -/
def Obligations.SquareWaveEnabledAndRateQueries : Prop :=
  SpelledBy .squareWaveOutputEnabled [0x40] ∧ SpelledBy .squareWaveOutputRate [0x45] ∧
  (∃ f : Byte → Bool, Queries .squareWaveOutputEnabled 0x07 (fun r => .bool (f r)) ∧
    ∀ r, f r = true ↔ r.toNat / 16 % 2 = 1) ∧
  ∃ f : Byte → Rate, Queries .squareWaveOutputRate 0x07 (fun r => .rate (f r)) ∧ ∀ r,
    (r.toNat % 4 = 0 → f r = .hz1) ∧ (r.toNat % 4 = 1 → f r = .hz4096) ∧
    (r.toNat % 4 = 2 → f r = .hz8192) ∧ (r.toNat % 4 = 3 → f r = .hz32768)

/-- R183, R188: the level is bit 7 of 0x07. That a set bit means `High` is the spec's own decision D13. -/
def Obligations.SquareWaveLevelQuery : Prop :=
  SpelledBy .squareWaveOutputLevel [0x43] ∧
  ∃ f : Byte → Level, Queries .squareWaveOutputLevel 0x07 (fun r => .level (f r)) ∧ ∀ r,
    (128 ≤ r.toNat → f r = .high) ∧ (r.toNat < 128 → f r = .low)

/-- R181, R182: bit 4 of 0x07 is set or cleared and no other bit changes; no write when it already is so. -/
def Obligations.EnableAndDisableChangeEnableBit : Prop :=
  SpelledBy .enableSquareWaveOutput [0x41] ∧ SpelledBy .disableSquareWaveOutput [0x42] ∧
  (∃ f : Byte → Option (List Byte), ReadsThenWrites .enableSquareWaveOutput 0x07 f ∧ ∀ r,
    (r.toNat / 16 % 2 = 1 → f r = none) ∧
    (r.toNat / 16 % 2 = 0 → ∃ x : Byte, f r = some [x] ∧ x.toNat = r.toNat + 16)) ∧
  (∃ f : Byte → Option (List Byte), ReadsThenWrites .disableSquareWaveOutput 0x07 f ∧ ∀ r,
    (r.toNat / 16 % 2 = 0 → f r = none) ∧
    (r.toNat / 16 % 2 = 1 → ∃ x : Byte, f r = some [x] ∧ x.toNat = r.toNat - 16))

/-- R184: bit 7 of 0x07 takes the level and no other bit changes; no write when it already is so. -/
def Obligations.SetLevelChangesLevelBit : Prop :=
  SpelledBy (.setSquareWaveOutputLevel .low) [0x44, 0x00] ∧
  SpelledBy (.setSquareWaveOutputLevel .high) [0x44, 0x01] ∧
  (∃ f : Byte → Option (List Byte), ReadsThenWrites (.setSquareWaveOutputLevel .high) 0x07 f ∧ ∀ r,
    (128 ≤ r.toNat → f r = none) ∧
    (r.toNat < 128 → ∃ x : Byte, f r = some [x] ∧ x.toNat = r.toNat + 128)) ∧
  (∃ f : Byte → Option (List Byte), ReadsThenWrites (.setSquareWaveOutputLevel .low) 0x07 f ∧ ∀ r,
    (r.toNat < 128 → f r = none) ∧
    (128 ≤ r.toNat → ∃ x : Byte, f r = some [x] ∧ x.toNat = r.toNat - 128))

/-- R186: both rate bits are replaced in one write and bits 7:2 kept; no write when the rate already
matches. -/
def Obligations.SetRateReplacesSelector : Prop :=
  ∀ (rate : Rate) (c : Byte),
    (rate = .hz1 ∧ c = 0x00) ∨ (rate = .hz4096 ∧ c = 0x01) ∨ (rate = .hz8192 ∧ c = 0x02) ∨
      (rate = .hz32768 ∧ c = 0x03) →
    SpelledBy (.setSquareWaveOutputRate rate) [0x46, c] ∧
    ∃ f : Byte → Option (List Byte), ReadsThenWrites (.setSquareWaveOutputRate rate) 0x07 f ∧ ∀ r,
      (r.toNat % 4 = c.toNat → f r = none) ∧
      (r.toNat % 4 ≠ c.toNat → ∃ x : Byte, f r = some [x] ∧ x.toNat = r.toNat / 4 * 4 + c.toNat)

/-- R187: the four codes, a bijection with the four rates, the same numbers in the register's selector and
on the host port. -/
def Obligations.RateCodesAreABijection : Prop :=
  rateCode .hz1 = 0 ∧ rateCode .hz4096 = 1 ∧ rateCode .hz8192 = 2 ∧ rateCode .hz32768 = 3 ∧
  (∀ rate, rateOf (rateCode rate) = rate ∧ rateOfCode (rateCode rate) = some rate) ∧
  ∀ r : Byte, (rateCode (rateOf r)).toNat = r.toNat % 4

/-! ## RAM window -/

/-- R200: the three outcomes of `ram_check`, the empty test first, the sum a natural number. That the empty
test comes first and the sum never wraps is the spec's own decision D15. -/
def Obligations.RamCheckOutcomes : Prop :=
  ∀ offset n : Nat,
    (n = 0 → ∃ h, ramCheck offset n = .empty h) ∧
    (n ≠ 0 → offset ≥ 56 ∨ offset + n > 56 → ∃ h, ramCheck offset n = .invalid h) ∧
    (n ≠ 0 → offset < 56 → offset + n ≤ 56 → ∃ h, ramCheck offset n = .span h)

/-- R201: an empty buffer succeeds at every offset without a transaction; a span not wholly inside the
window is rejected; otherwise one read of exactly the span. -/
def Obligations.ReadRamReadsExactlyTheSpan : Prop :=
  ∀ offset n : Byte, SpelledBy (.readRam offset n) [0x50, offset, n] ∧
    (n.toNat = 0 → Answers (.readRam offset n) (.bytes [])) ∧
    (1 ≤ n.toNat → offset.toNat ≥ 56 ∨ offset.toNat + n.toNat > 56 → Rejects (.readRam offset n)) ∧
    (1 ≤ n.toNat → offset.toNat + n.toNat ≤ 56 →
      ReadsOnly (.readRam offset n) (0x08 + offset.toNat) n.toNat (fun _ bs => .ok (.bytes bs)))

/-- R202: an empty buffer succeeds at every offset without a transaction; a span not wholly inside the
window is rejected whole; otherwise one write of exactly the span. -/
def Obligations.WriteRamWritesWholeOrNothing : Prop :=
  ∀ (offset n : Byte) (d : List Byte), d.length = n.toNat →
    SpelledBy (.writeRam offset d) ([0x51, offset, n] ++ d) ∧
    (n.toNat = 0 → Answers (.writeRam offset d) .unit) ∧
    (1 ≤ n.toNat → offset.toNat ≥ 56 ∨ offset.toNat + n.toNat > 56 → Rejects (.writeRam offset d)) ∧
    (1 ≤ n.toNat → offset.toNat + n.toNat ≤ 56 →
      WritesOnly (.writeRam offset d) (0x08 + offset.toNat) d)

/-- From R201, R202, R64: what `write_ram` stored, `read_ram` reads back, under either timekeeper, whatever
the timekeeper does between the two. -/
def Obligations.WriteThenReadRam : Prop :=
  ∀ (s : State) (offset n : Byte) (d : List Byte), d.length = n.toNat → 1 ≤ n.toNat →
    offset.toNat + n.toNat ≤ 56 → (s.turnAt 0).answer = .ok → (s.turnAt 1).answer = .ok →
    ∃ t u, exec (.writeRam offset d) s = .next t ∧ exec (.readRam offset n) t = .next u ∧
      u.output = s.output ++ [.ok .unit, .ok (.bytes d)]

/-! ## Errors -/

/-- R211: an operation answers `InvalidInputData` exactly on the conditions of the rule's table; only
`get_datetime` does so after a transaction, its one read, and none changes the register space. The calendar
check of `get_datetime` is the parameter CAL_SANE. -/
def Obligations.InvalidInputExactlyWhen : Prop :=
  ∀ (i : Instr) (s t : State), exec i s = .next t →
    (delivered s t (.error .invalidInputData) ↔
      i.rejected ∨ (i = .getDatetime ∧ (s.turnAt 0).answer = .ok ∧
        calSane s.params.calSane (dtDecode ((s.busMem 0).readSpan 0x00 7)) = false)) ∧
    (i.rejected → t.trace = s.trace ∧ t.mem = s.mem ∧ t.draws = s.draws) ∧
    (i = .getDatetime → delivered s t (.error .invalidInputData) → t.mem = s.busMem 0 ∧
      issued s t [rdAt s 0x00 7 (.ok ((s.busMem 0).readSpan 0x00 7))])

/-- R212: the response is `Transport(e)` exactly when the last transaction of the operation was answered
with failure `e`; a failed transaction is the last one; and a recorded failure is the transport's answer to
that transaction, passed on unchanged. -/
def Obligations.TransportErrorExactlyWhen : Prop :=
  ∀ (i : Instr) (s t : State), exec i s = .next t → ∃ evs, issued s t evs ∧
    (∀ e, delivered s t (.error (.transport e)) ↔
      ∃ before last, evs = before ++ [last] ∧ last.failure = some e) ∧
    (∀ before ev after, evs = before ++ ev :: after → ev.failure ≠ none → after = []) ∧
    (∀ k ev, evs[k]? = some ev → ev.failure = answerFailure (s.turnAt k).answer)

/-- R213: what an error leaves. After `InvalidInputData` the register space and the trace are as before, but
for the one read of `get_datetime`; after a failed read the block has changed no register; after a failed
write every register that the write did not address is as before, and under `unchanged` every register is.
`busMem` is the register space as the timekeeper leaves it before a transaction (R64). -/
def Obligations.StateLeftByAnError : Prop :=
  ∀ (i : Instr) (s t : State), exec i s = .next t →
    (delivered s t (.error .invalidInputData) →
      (i ≠ .getDatetime → t.mem = s.mem ∧ t.trace = s.trace) ∧
      (i = .getDatetime → t.mem = s.busMem 0 ∧ ∃ o, issued s t [rdAt s 0x00 7 (.ok o)])) ∧
    (∀ e, delivered s t (.error (.transport e)) →
      (∃ a n, t.mem = s.busMem 0 ∧ issued s t [rdAt s a n (.fail e)]) ∨
      (∃ a data before, issued s t (before ++ [wrAt s a data (.fail e)]) ∧
        failedOver s.params.writeFailEffect (s.busMem before.length) a data.length t.mem ∧
        (before = [] ∨ ∃ b n o, before = [rdAt s b n (.ok o)])))

/-- From the table of R250 with R212, R213 and, for a transaction never answered, the model's choice of
log 5: what an operation with an admitted operand does at its first transaction. -/
def Obligations.FirstTransactionFailsOrHangs : Prop :=
  ∀ i : Instr, ¬ i.rejected →
    (i.firstRequest = none → ∃ v, Answers i v) ∧
    (∀ a n, i.firstRequest = some (.read a n) → ∀ s : State,
      (∀ e, (s.turnAt 0).answer = .fail e →
        Completes i s 1 [rdAt s a n (.fail e)] (.error (.transport e)) (sameRegs (s.busMem 0))) ∧
      ((s.turnAt 0).answer = .never → Hangs i s 1 [] (sameRegs (s.busMem 0)))) ∧
    (∀ a data, i.firstRequest = some (.write a data) → ∀ s : State,
      (∀ e, (s.turnAt 0).answer = .fail e →
        Completes i s 1 [wrAt s a data (.fail e)] (.error (.transport e))
          (failedOver s.params.writeFailEffect (s.busMem 0) a data.length)) ∧
      ((s.turnAt 0).answer = .never → Hangs i s 1 [] (sameRegs (s.busMem 0))))

/-! ## Whole operations -/

/-- From R252, R92, R246 and, for the second case, the model's choice of log 5: every operation ends in a
next state; it delivers exactly one response and leaves the port as it was, or it waits on a transaction
that the transport never answers, delivers nothing and holds the port. -/
def Obligations.OneResponseOrHeldPort : Prop :=
  ∀ (i : Instr) (s : State), ∃ t evs, exec i s = .next t ∧ issued s t evs ∧ t.params = s.params ∧
    t.input = s.input ∧
    ((∃ r, delivered s t r ∧ t.port = s.port ∧ t.draws = s.draws + evs.length ∧
        t.turns = s.turns.drop evs.length) ∨
      (t.output = s.output ∧ t.port = .hung ∧ (s.turnAt evs.length).answer = .never ∧
        t.draws = s.draws + evs.length + 1 ∧ t.turns = s.turns.drop (evs.length + 1)))

/-- R245 and R95: the transactions of one operation are none, one read, one write, or one read and then one
write; each addresses the constant device and is a frame of R95's list. -/
def Obligations.TransactionsAreListedSequences : Prop :=
  ∀ (i : Instr) (s t : State), exec i s = .next t → ∃ evs, issued s t evs ∧
    (∀ e ∈ evs, listedFrame s.params.devAddr e) ∧
    (evs = [] ∨ (∃ a n o, evs = [rdAt s a n o]) ∨ (∃ a data o, evs = [wrAt s a data o]) ∨
      ∃ a n bs b data o, evs = [rdAt s a n (.ok bs), wrAt s b data o])

/-- R34: every bit that an operation does not own is written as read, and no register is written but those
the operation's rule names. Bits the free timekeeper may change are left out; so is the havoc of a failed
write, which the second premise rules out. -/
def Obligations.BitsNotOwnedArePreserved : Prop :=
  ∀ (i : Instr) (s t : State), exec i s = .next t →
    s.params.writeFailEffect = .unchanged ∨
      (answerFailure (s.turnAt 0).answer = none ∧ answerFailure (s.turnAt 1).answer = none) →
    ∀ a, t.mem.get a &&& ~~~(i.ownedBits a ||| timekeeperBits s.params.timekeeper a) =
      s.mem.get a &&& ~~~(i.ownedBits a ||| timekeeperBits s.params.timekeeper a)

/-- From R34 and R53: whatever the transport answers, a register that an operation's rule does not name is
changed by nothing but the timekeeper. -/
def Obligations.OnlyNamedRegistersAreWritten : Prop :=
  ∀ (i : Instr) (s t : State), exec i s = .next t → ∀ a, ¬ i.mayWrite a →
    t.mem.get a &&& ~~~timekeeperBits s.params.timekeeper a =
      s.mem.get a &&& ~~~timekeeperBits s.params.timekeeper a

/-- R20: the result of an operation is a function of its operands, the register space, the environment's
turns and the parameters, and of nothing else: what was delivered, traced or presented before does not
matter. -/
def Obligations.BlockKeepsNothing : Prop :=
  ∀ (i : Instr) (s s' : State), s.params = s'.params → s.mem = s'.mem → s.turns = s'.turns →
    s.draws = s'.draws →
    ∃ t t' rs evs, exec i s = .next t ∧ exec i s' = .next t' ∧
      t.output = s.output ++ rs ∧ t'.output = s'.output ++ rs ∧
      issued s t evs ∧ issued s' t' evs ∧
      t.mem = t'.mem ∧ t.params = t'.params ∧ t.turns = t'.turns ∧ t.draws = t'.draws

/-- R123: the variant written selects the mode (bit 6), the variant read reports it; under a frozen
timekeeper a valid hour set is the hour read; and no operation but `set_hours` and `set_datetime` writes the
hours register. -/
def Obligations.HourModeIsTheWrittenVariant : Prop :=
  (∀ hour, validHour hour → ∃ x, WritesOnly (.setHours hour) 0x02 [x] ∧
    (x.toNat / 64 % 2 = 0 ↔ ∃ h, hour = .h24 h)) ∧
  (∃ f : Byte → Hour, Queries .getHours 0x02 (fun r => .hour (f r)) ∧
    ∀ r, r.toNat / 64 % 2 = 0 ↔ ∃ h, f r = .h24 h) ∧
  (∀ (s : State) (hour : Hour), validHour hour → s.params.timekeeper = .frozen → (s.turnAt 0).answer = .ok →
    (s.turnAt 1).answer = .ok → ∃ t u, exec (.setHours hour) s = .next t ∧
      exec .getHours t = .next u ∧ u.output = s.output ++ [.ok .unit, .ok (.hour hour)]) ∧
  (∀ (i : Instr) (s t : State), exec i s = .next t → s.params.timekeeper = .frozen →
    (∀ hour, i ≠ .setHours hour) → (∀ dt, i ≠ .setDatetime dt) → t.mem.get 0x02 = s.mem.get 0x02)

/-! ## The bus primitives and the timekeeper -/

/-- R52: `MemRead`. That a single register is read by the same primitive and that the chip delivers
consecutive registers is the spec's own reading (D8, D17). -/
def Obligations.MemReadContract : Prop :=
  ∀ (sp : Span) (s : State),
    ((s.turnAt 0).answer = .ok → ∃ data t, memRead sp s = (.value data, t) ∧ data.length = sp.len ∧
      (∀ k, k < sp.len → data[k]? = some ((s.busMem 0).get (sp.addr + k))) ∧
      t.mem = s.busMem 0 ∧
      issued s t [.rd s.params.devAddr [BitVec.ofNat 8 sp.addr] sp.len (.ok data)]) ∧
    (∀ e, (s.turnAt 0).answer = .fail e → ∃ t, memRead sp s = (.raised (.transport e), t) ∧
      t.mem = s.busMem 0 ∧
      issued s t [.rd s.params.devAddr [BitVec.ofNat 8 sp.addr] sp.len (.fail e)])

/-- R53: `MemWrite`, with both settings of WRITE_FAIL_EFFECT (the spec's own decision D10). -/
def Obligations.MemWriteContract : Prop :=
  ∀ (p : Payload) (s : State),
    ((s.turnAt 0).answer = .ok → ∃ t, memWrite p s = (.value (), t) ∧
      (∀ k, k < p.data.length → some (t.mem.get (p.addr + k)) = p.data[k]?) ∧
      (∀ x, x < p.addr ∨ p.addr + p.data.length ≤ x → t.mem.get x = (s.busMem 0).get x) ∧
      issued s t [.wr s.params.devAddr (BitVec.ofNat 8 p.addr :: p.data) .ok]) ∧
    (∀ e, (s.turnAt 0).answer = .fail e → ∃ t, memWrite p s = (.raised (.transport e), t) ∧
      (∀ x, x < p.addr ∨ p.addr + p.data.length ≤ x → t.mem.get x = (s.busMem 0).get x) ∧
      (s.params.writeFailEffect = .unchanged → t.mem = s.busMem 0) ∧
      issued s t [.wr s.params.devAddr (BitVec.ofNat 8 p.addr :: p.data) (.fail e)])

/-- R64 (the spec's own decision D9): a frozen timekeeper changes nothing; a free one never changes the
halt bit, REG_SQW or the RAM window, and may put any values in the rest of the seven time registers. -/
def Obligations.TimekeeperIsConfined : Prop :=
  (∀ (m : Memory) (t : Option Tick), m.tick .frozen t = m) ∧
  (∀ (m : Memory) (t : Option Tick), timekeeperKeeps m (m.tick .free t)) ∧
  (∀ (m : Memory) (sec : Byte) (b1 b2 b3 b4 b5 b6 : Byte), ∃ t,
    (m.tick .free (some t)).readSpan 0x01 6 = [b1, b2, b3, b4, b5, b6] ∧
    (m.tick .free (some t)).get 0x00 &&& 0x7F = sec &&& 0x7F)

/-! ## Steps, decoding, encoding -/

/-- A step runs the decoded instruction: when the bytes at the idle port begin with the frame of `i`, the
step is `exec i` with the frame's bytes taken from the port. The host port as a list of bytes is the model's
choice (log 10). -/
def Obligations.StepRunsTheDecodedInstruction : Prop :=
  ∀ (s : State) (i : Instr) (rest : List Byte), s.port = .idle → decodeFrame s.input = .ok (i, rest) →
    step s = exec i { s with input := rest }

/-- The model's choices of log 11 and log 5: with nothing presented the block stays idle, and a port that is
held faults every later step. -/
def Obligations.StepWithoutACommand : Prop :=
  (∀ s : State, s.port = .idle → s.input = [] → step s = .next s) ∧
  (∀ s : State, s.port = .hung → step s = .fault .transportNeverAnswers)

/-- R90 (the spec's own decision D6): the reserved opcodes, hour tags, level codes and rate codes and every
frame cut short are refused, and a step at an idle port that is presented with such bytes is a refusal. -/
def Obligations.ReservedFramesAreRefused : Prop :=
  (∀ (op : Byte) rest, (0x04 ≤ op.toNat ∧ op.toNat ≤ 0x0F) ∨ (0x18 ≤ op.toNat ∧ op.toNat ≤ 0x1F) ∨
      (0x28 ≤ op.toNat ∧ op.toNat ≤ 0x2F) ∨ (0x33 ≤ op.toNat ∧ op.toNat ≤ 0x3F) ∨
      (0x47 ≤ op.toNat ∧ op.toNat ≤ 0x4F) ∨ 0x52 ≤ op.toNat →
    decodeFrame (op :: rest) = .error (.reservedOpcode op)) ∧
  (∀ (tag h : Byte) rest, 3 ≤ tag.toNat →
    decodeFrame (0x03 :: tag :: h :: rest) = .error (.reservedHourTag tag) ∧
    decodeFrame (0x22 :: tag :: h :: rest) = .error (.reservedHourTag tag)) ∧
  (∀ (lo hi mo d w tag h mi se : Byte) rest, 3 ≤ tag.toNat →
    decodeFrame (0x27 :: lo :: hi :: mo :: d :: w :: tag :: h :: mi :: se :: rest) =
      .error (.reservedHourTag tag)) ∧
  (∀ (v : Byte) rest, 2 ≤ v.toNat → decodeFrame (0x44 :: v :: rest) = .error (.reservedLevelCode v)) ∧
  (∀ (v : Byte) rest, 4 ≤ v.toNat → decodeFrame (0x46 :: v :: rest) = .error (.reservedRateCode v)) ∧
  (∀ i : Instr, i.wellFormed = true → ∀ k, k < (encode i).length →
    decodeFrame ((encode i).take k) = .error .shortFrame) ∧
  (∀ (s : State) (e : DecodeError), s.port = .idle → s.input ≠ [] → decodeFrame s.input = .error e →
    step s = .refused (.reservedEncoding e))

/-- Frames written out from R82 to R89 decode to the operations they stand for. -/
def Obligations.SampleFramesDecode : Prop :=
  decodeFrame [0x00, 0x59] = .ok (.decodeBcd 0x59, []) ∧
  decodeFrame [0x03, 0x02, 0x0C] = .ok (.encodeHours (.pm 12), []) ∧
  decodeFrame [0x17] = .ok (.getDatetime, []) ∧
  decodeFrame [0x26, 0x33, 0x08] = .ok (.setYear 2099, []) ∧
  decodeFrame [0x27, 0x33, 0x08, 0x0C, 0x1F, 0x07, 0x00, 0x17, 0x3B, 0x3A] =
    .ok (.setDatetime ⟨2099, 12, 31, 7, .h24 23, 59, 58⟩, []) ∧
  decodeFrame [0x32] = .ok (.halt, []) ∧
  decodeFrame [0x46, 0x03] = .ok (.setSquareWaveOutputRate .hz32768, []) ∧
  decodeFrame [0x51, 0x36, 0x02, 0xAA, 0xBB, 0x10] = .ok (.writeRam 54 [0xAA, 0xBB], [0x10])

/-- From R81 to R91: the decoder reads every well-formed instruction back from its encoding, with every
operand, whatever bytes follow. -/
def Obligations.DecodeOfEncode : Prop :=
  ∀ i : Instr, i.wellFormed = true → ∀ rest, decodeFrame (encode i ++ rest) = .ok (i, rest)

/-- From R81 to R91: whatever the decoder reads is a well-formed instruction, and the bytes it read are that
instruction's encoding: no frame has two meanings and no bit of a frame is ignored. -/
def Obligations.EncodeOfDecode : Prop :=
  ∀ bytes i rest, decodeFrame bytes = .ok (i, rest) → i.wellFormed = true ∧ bytes = encode i ++ rest

/-- R92, R93: status byte and result bytes of a response frame (the spec's own decision D3). The bytes after
status 0x02 are left to the transport (log 6) and not stated. -/
def Obligations.ResponseFrames : Prop :=
  (Response.ok .unit).frame = [0x00] ∧
  (Response.ok (.bool false)).frame = [0x00, 0x00] ∧ (Response.ok (.bool true)).frame = [0x00, 0x01] ∧
  (∀ v, (Response.ok (.u8 v)).frame = [0x00, v]) ∧
  (∀ v, ∃ lo hi : Byte, (Response.ok (.u16 v)).frame = [0x00, lo, hi] ∧
    v.toNat = lo.toNat + 256 * hi.toNat) ∧
  (∀ h, (Response.ok (.hour (.h24 h))).frame = [0x00, 0x00, h] ∧
    (Response.ok (.hour (.am h))).frame = [0x00, 0x01, h] ∧
    (Response.ok (.hour (.pm h))).frame = [0x00, 0x02, h]) ∧
  (∀ dt, ∃ lo hi tag h : Byte, (Response.ok (.dateTime dt)).frame =
      [0x00, lo, hi, dt.month, dt.day, dt.weekday, tag, h, dt.minute, dt.second] ∧
    dt.year.toNat = lo.toNat + 256 * hi.toNat ∧ (Response.ok (.hour dt.hour)).frame = [0x00, tag, h]) ∧
  (Response.ok (.level .low)).frame = [0x00, 0x00] ∧ (Response.ok (.level .high)).frame = [0x00, 0x01] ∧
  (∀ rate, (Response.ok (.rate rate)).frame = [0x00, rateCode rate]) ∧
  (∀ bs, (Response.ok (.bytes bs)).frame = 0x00 :: bs) ∧
  (Response.error .invalidInputData).frame = [0x01] ∧
  ∀ e, ∃ bs, (Response.error (.transport e)).frame = 0x02 :: bs

/-- Lines of R94's text form (the spec's own decision D24) and the operations they spell. -/
def Obligations.SampleLinesAssemble : Prop :=
  assembleLine "set_datetime 2018, 8, 13, 2, H24(23), 59, 58".toList =
    some (some (.setDatetime ⟨2018, 8, 13, 2, .h24 23, 59, 58⟩)) ∧
  assembleLine "decode 0b0011_1010".toList = some (some (.decodeBcd 0x3A)) ∧
  assembleLine "set_square_wave_output_rate 4.096kHz".toList =
    some (some (.setSquareWaveOutputRate .hz4096)) ∧
  assembleLine "write_ram 0, []".toList = some (some (.writeRam 0 []))

/-! ## Reset, launch, invariants -/

/-- The invariant holds at reset: the register space is canonical and the trace empty. -/
def Obligations.ResetHasInvariant : Prop := State.reset.Inv

/-- R242: at launch the trace is empty, the host port idle with no command presented and no response
pending; and (R37, R241) the register space may hold any 64 bytes, whatever the parameters. That
`State.reset` itself takes one such image is the model's choice (log 3), on which nothing here rests. -/
def Obligations.LaunchStates : Prop :=
  (State.reset.trace = [] ∧ State.reset.port = .idle ∧ State.reset.input = [] ∧
    State.reset.output = []) ∧
  ∀ params (image : List Byte) turns, image.length = 64 →
    let s := State.launch params image turns
    s.Inv ∧ s.trace = [] ∧ s.port = .idle ∧ s.input = [] ∧ s.output = [] ∧ s.params = params ∧
      ∀ a, a < 64 → some (s.mem.get a) = image[a]?

/-- From R24, R95: every step keeps the invariant: only registers 0x00 to 0x3F exist, the register space is
canonical, and every traced transaction is a listed frame to the constant device. -/
def Obligations.StepKeepsInvariant : Prop :=
  ∀ s t : State, s.Inv → step s = .next t → t.Inv ∧ t.params = s.params

/-- R38 (first consequence): under `WF` every getter returns a value in its documented range, and what
`get_datetime` decodes satisfies the ranges. -/
def Obligations.GettersInRangeUnderWF : Prop :=
  ∀ s : State, WF (s.busMem 0) → (s.turnAt 0).answer = .ok →
    (∃ (v : Byte) (t : State), exec .getSeconds s = .next t ∧ delivered s t (.ok (.u8 v)) ∧ v.toNat ≤ 59) ∧
    (∃ (v : Byte) (t : State), exec .getMinutes s = .next t ∧ delivered s t (.ok (.u8 v)) ∧ v.toNat ≤ 59) ∧
    (∃ (h : Hour) (t : State), exec .getHours s = .next t ∧ delivered s t (.ok (.hour h)) ∧ validHour h) ∧
    (∃ (v : Byte) (t : State), exec .getWeekday s = .next t ∧ delivered s t (.ok (.u8 v)) ∧
      1 ≤ v.toNat ∧ v.toNat ≤ 7) ∧
    (∃ (v : Byte) (t : State), exec .getDay s = .next t ∧ delivered s t (.ok (.u8 v)) ∧
      1 ≤ v.toNat ∧ v.toNat ≤ 31) ∧
    (∃ (v : Byte) (t : State), exec .getMonth s = .next t ∧ delivered s t (.ok (.u8 v)) ∧
      1 ≤ v.toNat ∧ v.toNat ≤ 12) ∧
    (∃ (v : Half) (t : State), exec .getYear s = .next t ∧ delivered s t (.ok (.u16 v)) ∧
      2000 ≤ v.toNat ∧ v.toNat ≤ 2099) ∧
    inRanges (dtDecode ((s.busMem 0).readSpan 0x00 7))

/-- R38 (second consequence): a setter that succeeds leaves the registers it wrote satisfying their clause
of `WF`. -/
def Obligations.SettersEstablishWF : Prop :=
  ∀ (i : Instr) (s t : State), exec i s = .next t → delivered s t (.ok .unit) →
    (∀ v, i = .setSeconds v → wfSeconds (t.mem.get 0x00)) ∧
    (∀ v, i = .setMinutes v → packedBcd 0 59 (t.mem.get 0x01)) ∧
    (∀ h, i = .setHours h → wfHours (t.mem.get 0x02)) ∧
    (∀ v, i = .setWeekday v → wfWeekday (t.mem.get 0x03)) ∧
    (∀ v, i = .setDay v → packedBcd 1 31 (t.mem.get 0x04)) ∧
    (∀ v, i = .setMonth v → packedBcd 1 12 (t.mem.get 0x05)) ∧
    (∀ v, i = .setYear v → packedBcd 0 99 (t.mem.get 0x06)) ∧
    (∀ dt, i = .setDatetime dt → WF t.mem)

end
end

