-- ==== Sys2Proof/Laws/Assembly.lean ====
section
/-! SUPPORT. The text form spells well-formed operations only. -/

namespace Sys2Proof.Machine

theorem noOperand_eq_some {i j : Instr} {ts : List Text} (h : noOperand i ts = some j) : j = i := by
  cases ts <;> simp_all [noOperand]

theorem oneOperand_eq_some {α : Type} {parse : Text → Option α} {mk : α → Instr} {ts : List Text}
    {j : Instr} (h : oneOperand parse mk ts = some j) : ∃ a, j = mk a := by
  match ts with
  | [] => simp [oneOperand] at h
  | [t] =>
    obtain ⟨a, -, rfl⟩ := Option.map_eq_some_iff.1 h
    exact ⟨a, rfl⟩
  | _ :: _ :: _ => simp [oneOperand] at h

theorem ramReadOperands_eq_some {ts : List Text} {j : Instr} (h : ramReadOperands ts = some j) :
    ∃ offset n, j = .readRam offset n := by
  unfold ramReadOperands at h
  repeat' split at h
  all_goals simp at h
  exact ⟨_, _, h.symm⟩

/-- A `write_ram` line spells at most 255 data bytes (log 16). -/
theorem ramWriteOperands_eq_some {ts : List Text} {j : Instr} (h : ramWriteOperands ts = some j) :
    ∃ offset d, j = .writeRam offset d ∧ d.length ≤ 255 := by
  unfold ramWriteOperands at h
  repeat' split at h
  all_goals simp at h
  exact ⟨_, _, h.symm, ‹_›⟩

theorem dateTimeOperands_eq_some {ts : List Text} {j : Instr} (h : dateTimeOperands ts = some j) :
    ∃ dt, j = .setDatetime dt := by
  unfold dateTimeOperands at h
  repeat' split at h
  all_goals simp at h
  exact ⟨_, h.symm⟩

/-- Whatever the operands, a mnemonic's row spells well-formed operations only. -/
theorem mnemonics_wellFormed {m : String × (List Text → Option Instr)} (hm : m ∈ mnemonics)
    {ts : List Text} {j : Instr} (h : m.2 ts = some j) : j.wellFormed = true := by
  simp only [mnemonics, List.cons_append, List.nil_append, List.mem_cons, List.not_mem_nil,
    or_false] at hm
  rcases hm with rfl | rfl | rfl | rfl | rfl | rfl | rfl | rfl | rfl | rfl | rfl | rfl | rfl | rfl |
    rfl | rfl | rfl | rfl | rfl | rfl | rfl | rfl | rfl | rfl | rfl | rfl | rfl | rfl | rfl | rfl |
    rfl | rfl
  all_goals first
    | (obtain rfl := noOperand_eq_some h; rfl)
    | (obtain ⟨_, rfl⟩ := oneOperand_eq_some h; rfl)
    | (obtain ⟨_, rfl⟩ := dateTimeOperands_eq_some h; rfl)
    | (obtain ⟨_, _, rfl⟩ := ramReadOperands_eq_some h; rfl)
    | (obtain ⟨_, _, rfl, hd⟩ := ramWriteOperands_eq_some h; exact decide_eq_true hd)

/-- Every operation that a line spells is well formed, so it has a frame (R94, log 16). -/
theorem assembleLine_wellFormed {line : Text} {i : Instr} (h : assembleLine line = some (some i)) :
    i.wellFormed = true := by
  unfold assembleLine at h
  simp only at h
  split at h
  · simp at h
  · split at h
    · next m hm =>
      obtain ⟨j, hj, hi⟩ := Option.map_eq_some_iff.1 h
      obtain rfl := Option.some.inj hi
      exact mnemonics_wellFormed (List.mem_of_find?_eq_some hm) hj
    · simp at h

end Sys2Proof.Machine
end

