-- ==== Sys2Proof/Laws/Decode.lean ====
section
/-! SUPPORT. The small laws of the operand codes and of the frame formats. -/

namespace Sys2Proof

/-! ## Operand codes -/

theorem lowByte_toNat (v : Half) : (lowByte v).toNat = v.toNat % 256 := by
  simp [lowByte]

theorem highByte_toNat (v : Half) : (highByte v).toNat = v.toNat / 256 := by
  have := v.isLt
  simp only [highByte, BitVec.toNat_ofNat]; omega

theorem halfOfBytes_toNat (lo hi : Byte) : (halfOfBytes lo hi).toNat = lo.toNat + 256 * hi.toNat := by
  have := lo.isLt
  have := hi.isLt
  simp only [halfOfBytes, BitVec.toNat_ofNat]; omega

/-- The two bytes of a half give it back (R84). -/
@[simp] theorem halfOfBytes_bytes (v : Half) : halfOfBytes (lowByte v) (highByte v) = v :=
  BitVec.eq_of_toNat_eq (by rw [halfOfBytes_toNat, lowByte_toNat, highByte_toNat]; omega)

@[simp] theorem lowByte_halfOfBytes (lo hi : Byte) : lowByte (halfOfBytes lo hi) = lo := by
  have := lo.isLt
  exact BitVec.eq_of_toNat_eq (by rw [lowByte_toNat, halfOfBytes_toNat]; omega)

@[simp] theorem highByte_halfOfBytes (lo hi : Byte) : highByte (halfOfBytes lo hi) = hi := by
  have := lo.isLt
  exact BitVec.eq_of_toNat_eq (by rw [highByte_toNat, halfOfBytes_toNat]; omega)

@[simp] theorem hourOfTag_hourTag (hour : Hour) : hourOfTag (hourTag hour) (hourNumber hour) = some hour := by
  cases hour <;> rfl

/-- A tag that spells an hour is that hour's tag (R85). -/
theorem hourOfTag_eq_some {tag h : Byte} {hour : Hour} (hh : hourOfTag tag h = some hour) :
    tag = hourTag hour ∧ h = hourNumber hour := by
  unfold hourOfTag at hh
  split at hh <;> cases hh <;> exact ⟨BitVec.eq_of_toNat_eq ‹_›, rfl⟩

theorem hourOfTag_eq_none {tag h : Byte} (ht : 3 ≤ tag.toNat) : hourOfTag tag h = none := by
  unfold hourOfTag
  split <;> first | omega | rfl

@[simp] theorem levelOfCode_levelCode (l : Level) : levelOfCode (levelCode l) = some l := by
  cases l <;> rfl

theorem levelOfCode_eq_some {v : Byte} {l : Level} (h : levelOfCode v = some l) : v = levelCode l := by
  unfold levelOfCode at h
  split at h <;> cases h <;> exact BitVec.eq_of_toNat_eq ‹_›

theorem levelOfCode_eq_none {v : Byte} (hv : 2 ≤ v.toNat) : levelOfCode v = none := by
  unfold levelOfCode
  split <;> first | omega | rfl

@[simp] theorem rateOfCode_rateCode (r : Rate) : rateOfCode (rateCode r) = some r := by
  cases r <;> rfl

theorem rateOfCode_eq_some {v : Byte} {r : Rate} (h : rateOfCode v = some r) : v = rateCode r := by
  unfold rateOfCode at h
  split at h <;> cases h <;> exact BitVec.eq_of_toNat_eq ‹_›

theorem rateOfCode_eq_none {v : Byte} (hv : 4 ≤ v.toNat) : rateOfCode v = none := by
  unfold rateOfCode
  split <;> first | omega | rfl

/-! ## What each format reads

If a format reads an instruction, the bytes were its operand bytes and the rest. -/

variable {i : Instr} {bytes rest : List Byte}

theorem formatB_eq_ok {mk : Byte → Instr} (h : formatB mk bytes = .ok (i, rest)) :
    ∃ v, bytes = v :: rest ∧ i = mk v := by
  unfold formatB at h
  split at h <;> cases h
  exact ⟨_, rfl, rfl⟩

theorem formatLevel_eq_ok {mk : Level → Instr} (h : formatLevel mk bytes = .ok (i, rest)) :
    ∃ l, bytes = levelCode l :: rest ∧ i = mk l := by
  unfold formatLevel at h
  split at h
  · split at h
    · cases h
      rename_i hl
      exact ⟨_, by rw [levelOfCode_eq_some hl], rfl⟩
    · cases h
  · cases h

theorem formatRate_eq_ok {mk : Rate → Instr} (h : formatRate mk bytes = .ok (i, rest)) :
    ∃ r, bytes = rateCode r :: rest ∧ i = mk r := by
  unfold formatRate at h
  split at h
  · split at h
    · cases h
      rename_i hr
      exact ⟨_, by rw [rateOfCode_eq_some hr], rfl⟩
    · cases h
  · cases h

theorem formatW_eq_ok {mk : Half → Instr} (h : formatW mk bytes = .ok (i, rest)) :
    ∃ v, bytes = halfBytes v ++ rest ∧ i = mk v := by
  unfold formatW at h
  split at h <;> cases h
  exact ⟨_, by simp [halfBytes], rfl⟩

theorem formatH_eq_ok {mk : Hour → Instr} (h : formatH mk bytes = .ok (i, rest)) :
    ∃ hour, bytes = hourBytes hour ++ rest ∧ i = mk hour := by
  unfold formatH at h
  split at h
  · split at h
    · cases h
      obtain ⟨h1, h2⟩ := hourOfTag_eq_some ‹_›
      exact ⟨_, by rw [h1, h2]; rfl, rfl⟩
    · cases h
  · cases h

theorem formatT_eq_ok {mk : DateTime → Instr} (h : formatT mk bytes = .ok (i, rest)) :
    ∃ dt, bytes = dateTimeBytes dt ++ rest ∧ i = mk dt := by
  unfold formatT at h
  split at h
  · split at h
    · cases h
      obtain ⟨h1, h2⟩ := hourOfTag_eq_some ‹_›
      exact ⟨_, by rw [h1, h2]; simp [dateTimeBytes, halfBytes, hourBytes], rfl⟩
    · cases h
  · cases h

theorem formatR_eq_ok {mk : Byte → Byte → Instr} (h : formatR mk bytes = .ok (i, rest)) :
    ∃ offset n, bytes = offset :: n :: rest ∧ i = mk offset n := by
  unfold formatR at h
  split at h <;> cases h
  exact ⟨_, _, rfl, rfl⟩

theorem formatM_eq_ok {mk : Byte → List Byte → Instr} (h : formatM mk bytes = .ok (i, rest)) :
    ∃ offset d, bytes = offset :: BitVec.ofNat 8 d.length :: d ++ rest ∧ d.length ≤ 255 ∧
      i = mk offset d := by
  unfold formatM at h
  split at h
  · rename_i offset n bs
    split at h
    · rename_i hn
      cases h
      have hlt := n.isLt
      refine ⟨offset, bs.take n.toNat, ?_, by rw [List.length_take]; omega, rfl⟩
      have hl : (bs.take n.toNat).length = n.toNat := by rw [List.length_take]; omega
      rw [hl]
      simp
    · cases h
  · cases h

/-- The data of format M are found again behind their length (R87). -/
theorem formatM_data (mk : Byte → List Byte → Instr) (offset : Byte) {d : List Byte}
    (hd : d.length ≤ 255) (rest : List Byte) :
    formatM mk (offset :: BitVec.ofNat 8 d.length :: (d ++ rest)) = .ok (mk offset d, rest) := by
  have h : d.length % 256 = d.length := by omega
  simp [formatM, h]

end Sys2Proof
end

