-- ==== Sys2Proof/Laws/Operands.lean ====
section
/-! SUPPORT. The laws of the value encodings (R112, R122, R164) and of the range checks. -/

namespace Sys2Proof.Machine

/-! ## Packed BCD -/

theorem highNibble_eq (b : Byte) : highNibble b = b.toNat / 16 := by
  have := b.isLt
  simp [highNibble, BitVec.extractLsb, Nat.shiftRight_eq_div_pow]
  omega

theorem lowNibble_eq (b : Byte) : lowNibble b = b.toNat % 16 := by
  simp [lowNibble, BitVec.extractLsb]

/-- `bcd_decode` is high nibble times ten plus low nibble (R110). -/
theorem bcdValue_eq (b : Byte) : bcdValue b = b.toNat / 16 * 10 + b.toNat % 16 := by
  rw [bcdValue, highNibble_eq, lowNibble_eq]

theorem bcdValue_le (b : Byte) : bcdValue b ≤ 165 := by
  have := b.isLt
  rw [bcdValue_eq]; omega

/-- The value fits in 8 bits (R113). -/
@[simp] theorem bcdDecode_toNat (b : Byte) : (bcdDecode b).toNat = bcdValue b := by
  have := bcdValue_le b
  simp only [bcdDecode, BitVec.toNat_ofNat]; omega

theorem yearDecode_toNat (b : Byte) : (yearDecode b).toNat = 2000 + bcdValue b := by
  have := bcdValue_le b
  simp only [yearDecode, BitVec.toNat_ofNat]; omega

/-- Tens in the high nibble, units in the low one (R111). -/
theorem bcdEncode_toNat (d : Byte) : (bcdEncode d).toNat = (d.toNat / 10 * 16 + d.toNat % 10) % 256 := by
  have h : (d.toNat / 10) <<< 4 ||| d.toNat % 10 = d.toNat / 10 * 16 + d.toNat % 10 := by
    rw [← Nat.shiftLeft_add_eq_or_of_lt (by omega), Nat.shiftLeft_eq]
  simp only [bcdEncode, BitVec.toNat_ofNat, h]

theorem bcdEncode_toNat_of_le {d : Byte} (h : d.toNat ≤ 99) :
    (bcdEncode d).toNat = d.toNat / 10 * 16 + d.toNat % 10 := by
  rw [bcdEncode_toNat]; omega

/-- R112 (a). -/
theorem bcdValue_bcdEncode {d : Byte} (h : d.toNat ≤ 99) : bcdValue (bcdEncode d) = d.toNat := by
  rw [bcdValue_eq, bcdEncode_toNat_of_le h]; omega

theorem bcdDecode_bcdEncode {d : Byte} (h : d.toNat ≤ 99) : bcdDecode (bcdEncode d) = d :=
  BitVec.eq_of_toNat_eq (by rw [bcdDecode_toNat, bcdValue_bcdEncode h])

/-- R112 (b). -/
theorem bcdEncode_bcdDecode {b : Byte} (h1 : highNibble b ≤ 9) (h2 : lowNibble b ≤ 9) :
    bcdEncode (bcdDecode b) = b := by
  rw [highNibble_eq] at h1
  rw [lowNibble_eq] at h2
  apply BitVec.eq_of_toNat_eq
  rw [bcdEncode_toNat, bcdDecode_toNat, bcdValue_eq]; omega

/-- R112 (c). -/
theorem packedBcd_bcdEncode {d : Byte} {lo hi : Nat} (h : d.toNat ≤ 99) (h1 : lo ≤ d.toNat)
    (h2 : d.toNat ≤ hi) : packedBcd lo hi (bcdEncode d) := by
  refine ⟨?_, ?_, by rw [bcdValue_bcdEncode h]; exact h1, by rw [bcdValue_bcdEncode h]; exact h2⟩
  · rw [highNibble_eq, bcdEncode_toNat_of_le h]; omega
  · rw [lowNibble_eq, bcdEncode_toNat_of_le h]; omega

/-! ## Masks as arithmetic -/

theorem toNat_and_7F (b : Byte) : (b &&& 0x7F).toNat = b.toNat % 128 := by
  rw [BitVec.toNat_and]; exact Nat.and_two_pow_sub_one_eq_mod _ 7

theorem toNat_and_3F (b : Byte) : (b &&& 0x3F).toNat = b.toNat % 64 := by
  rw [BitVec.toNat_and]; exact Nat.and_two_pow_sub_one_eq_mod _ 6

theorem toNat_and_1F (b : Byte) : (b &&& 0x1F).toNat = b.toNat % 32 := by
  rw [BitVec.toNat_and]; exact Nat.and_two_pow_sub_one_eq_mod _ 5

theorem toNat_and_80 (b : Byte) : (b &&& 0x80).toNat = b.toNat / 128 * 128 := by
  revert b; decide

/-- The halt bit and seven bits below it do not overlap (R112 item d). -/
theorem toNat_haltBit_or (r x : Byte) (h : x.toNat < 128) :
    ((r &&& 0x80) ||| x).toNat = r.toNat / 128 * 128 + x.toNat := by
  rw [BitVec.toNat_or, toNat_and_80]
  have := Nat.shiftLeft_add_eq_or_of_lt (i := 7) (b := x.toNat) h (r.toNat / 128)
  rw [Nat.shiftLeft_eq] at this
  exact this.symm

theorem toNat_secondsByte {v : Byte} (r : Byte) (h : v.toNat ≤ 59) :
    (secondsByte r v).toNat = r.toNat / 128 * 128 + (bcdEncode v).toNat :=
  toNat_haltBit_or _ _ (by rw [bcdEncode_toNat_of_le (by omega)]; omega)

theorem secondsByte_and_7F {v : Byte} (r : Byte) (h : v.toNat ≤ 59) :
    secondsByte r v &&& 0x7F = bcdEncode v := by
  apply BitVec.eq_of_toNat_eq
  rw [toNat_and_7F, toNat_secondsByte r h, bcdEncode_toNat_of_le (by omega)]; omega

/-- Writing seconds keeps the halt bit (R133). -/
theorem secondsByte_and_80 {v : Byte} (r : Byte) (h : v.toNat ≤ 59) :
    secondsByte r v &&& 0x80 = r &&& 0x80 := by
  apply BitVec.eq_of_toNat_eq
  rw [toNat_and_80, toNat_and_80, toNat_secondsByte r h, bcdEncode_toNat_of_le (by omega)]; omega

/-! ## Hours -/

theorem toNat_amByte {h : Byte} (hv : h.toNat ≤ 12) :
    (0x40 ||| bcdEncode h).toNat = 64 + (bcdEncode h).toNat := by
  have hb : (bcdEncode h).toNat < 2 ^ 6 := by rw [bcdEncode_toNat_of_le (by omega)]; omega
  rw [BitVec.toNat_or]
  exact (Nat.shiftLeft_add_eq_or_of_lt hb 1).symm

theorem toNat_pmByte {h : Byte} (hv : h.toNat ≤ 12) :
    (0x40 ||| 0x20 ||| bcdEncode h).toNat = 96 + (bcdEncode h).toNat := by
  have hb : (bcdEncode h).toNat < 2 ^ 5 := by rw [bcdEncode_toNat_of_le (by omega)]; omega
  rw [BitVec.toNat_or]
  exact (Nat.shiftLeft_add_eq_or_of_lt hb 3).symm

theorem getLsbD_toNat (b : Byte) (k : Nat) : b.getLsbD k = decide (b.toNat / 2 ^ k % 2 = 1) := by
  simp [BitVec.getLsbD, Nat.testBit_eq_decide_div_mod_eq]

/-- `decode_hours` by the number of the byte. -/
theorem hoursDecode_eq (b : Byte) :
    hoursDecode b =
      if b.toNat / 64 % 2 = 0 then .h24 (bcdDecode (b &&& 0x3F))
      else if b.toNat / 32 % 2 = 0 then .am (bcdDecode (b &&& 0x1F))
      else .pm (bcdDecode (b &&& 0x1F)) := by
  simp only [hoursDecode, getLsbD_toNat, decide_eq_false_iff_not]
  norm_num

/-- Every valid hour is read back from its byte (R122). -/
theorem hoursDecode_hourByte {hour : Hour} (hv : hourValid hour = true) :
    hoursDecode (hourByte hour) = hour := by
  cases hour with
  | h24 h =>
    simp only [hourValid, decide_eq_true_eq] at hv
    have hb := bcdEncode_toNat_of_le (d := h) (by omega)
    have hm : bcdEncode h &&& 0x3F = bcdEncode h :=
      BitVec.eq_of_toNat_eq (by rw [toNat_and_3F]; omega)
    rw [hourByte, hoursDecode_eq, if_pos (by omega), hm, bcdDecode_bcdEncode (by omega)]
  | am h =>
    simp only [hourValid, decide_eq_true_eq] at hv
    have hb := bcdEncode_toNat_of_le (d := h) (by omega)
    have ha := toNat_amByte (h := h) hv.2
    have hm : (0x40 ||| bcdEncode h) &&& 0x1F = bcdEncode h :=
      BitVec.eq_of_toNat_eq (by rw [toNat_and_1F]; omega)
    rw [hourByte, hoursDecode_eq, if_neg (by omega), if_pos (by omega), hm,
      bcdDecode_bcdEncode (by omega)]
  | pm h =>
    simp only [hourValid, decide_eq_true_eq] at hv
    have hb := bcdEncode_toNat_of_le (d := h) (by omega)
    have ha := toNat_pmByte (h := h) hv.2
    have hm : (0x40 ||| 0x20 ||| bcdEncode h) &&& 0x1F = bcdEncode h :=
      BitVec.eq_of_toNat_eq (by rw [toNat_and_1F]; omega)
    rw [hourByte, hoursDecode_eq, if_neg (by omega), if_neg (by omega), hm,
      bcdDecode_bcdEncode (by omega)]

/-! ## Years and the date-time image -/

theorem yearOffset_toNat {v : Half} (h : yearOk v = true) :
    (BitVec.ofNat 8 (v.toNat - 2000)).toNat = v.toNat - 2000 := by
  simp only [yearOk, decide_eq_true_eq] at h
  simp only [BitVec.toNat_ofNat]; omega

/-- A year in range is read back from its byte (R144, R145). -/
theorem yearDecode_yearByte {v : Half} (h : yearOk v = true) : yearDecode (yearByte v) = v := by
  have ho := yearOffset_toNat h
  simp only [yearOk, decide_eq_true_eq] at h
  apply BitVec.eq_of_toNat_eq
  rw [yearDecode_toNat, yearByte, bcdValue_bcdEncode (by omega), ho]; omega

/-- What `dt_ranges_ok` says of each field (R163). -/
theorem dtRangesOk_iff (dt : DateTime) : dtRangesOk dt = true ↔
    yearOk dt.year = true ∧ monthOk dt.month = true ∧ dayOk dt.day = true ∧
      weekdayOk dt.weekday = true ∧ hourValid dt.hour = true ∧ sixtyOk dt.minute = true ∧
        sixtyOk dt.second = true := by
  simp [dtRangesOk, and_assoc]

/-- A date-time in range is read back from its seven bytes (R164). -/
theorem dtDecode_dtPayload (r0 : Byte) {dt : DateTime} (h : dtRangesOk dt = true) :
    dtDecode (dtPayload r0 dt) = dt := by
  obtain ⟨hy, hmo, hd, -, hh, hmi, hs⟩ := (dtRangesOk_iff dt).mp h
  simp only [monthOk, dayOk, sixtyOk, decide_eq_true_eq] at hmo hd hmi hs
  obtain ⟨year, month, day, weekday, hour, minute, second⟩ := dt
  simp only [dtDecode, dtPayload, List.getD_cons_zero, List.getD_cons_succ] at *
  rw [secondsByte_and_7F r0 hs, bcdDecode_bcdEncode (by omega), bcdDecode_bcdEncode (by omega),
    bcdDecode_bcdEncode (by omega), bcdDecode_bcdEncode (by omega), hoursDecode_hourByte hh,
    yearDecode_yearByte hy]

/-! ## The model's functions against the arithmetic of Safety -/

theorem hourValid_iff (hour : Hour) : hourValid hour = true ↔ validHour hour := by
  cases hour <;> simp [hourValid, validHour]

theorem dtRangesOk_iff_inRanges (dt : DateTime) : dtRangesOk dt = true ↔ inRanges dt := by
  simp [dtRangesOk_iff, inRanges, yearOk, monthOk, dayOk, weekdayOk, sixtyOk, hourValid_iff]

theorem encodesHour_hourByte {hour : Hour} (h : validHour hour) : encodesHour hour (hourByte hour) := by
  cases hour with
  | h24 h' => exact bcdEncode_toNat_of_le (by simp only [validHour] at h; omega)
  | am h' =>
    simp only [validHour] at h
    rw [encodesHour, hourByte, toNat_amByte h.2, bcdEncode_toNat_of_le (by omega)]
  | pm h' =>
    simp only [validHour] at h
    rw [encodesHour, hourByte, toNat_pmByte h.2, bcdEncode_toNat_of_le (by omega)]

theorem bcdDecode_and_7F (b : Byte) :
    (bcdDecode (b &&& 0x7F)).toNat = b.toNat % 128 / 16 * 10 + b.toNat % 16 := by
  rw [bcdDecode_toNat, bcdValue_eq, toNat_and_7F]; omega

theorem bcdDecode_eq (b : Byte) : (bcdDecode b).toNat = b.toNat / 16 * 10 + b.toNat % 16 := by
  rw [bcdDecode_toNat, bcdValue_eq]

theorem yearDecode_eq (b : Byte) :
    (yearDecode b).toNat = 2000 + (b.toNat / 16 * 10 + b.toNat % 16) := by
  rw [yearDecode_toNat, bcdValue_eq]

theorem decodesHour_hoursDecode (b : Byte) : decodesHour b (hoursDecode b) := by
  rw [hoursDecode_eq]
  split
  · refine ⟨‹_›, ?_⟩
    rw [bcdDecode_toNat, bcdValue_eq, toNat_and_3F]; omega
  · split
    · refine ⟨by omega, ‹_›, ?_⟩
      rw [bcdDecode_toNat, bcdValue_eq, toNat_and_1F]; omega
    · refine ⟨by omega, by omega, ?_⟩
      rw [bcdDecode_toNat, bcdValue_eq, toNat_and_1F]; omega

theorem yearByte_toNat {v : Half} (h : yearOk v = true) :
    (yearByte v).toNat = (v.toNat - 2000) / 10 * 16 + (v.toNat - 2000) % 10 := by
  have ho := yearOffset_toNat h
  simp only [yearOk, decide_eq_true_eq] at h
  rw [yearByte, bcdEncode_toNat_of_le (by omega), ho]

theorem decodesDateTime_dtDecode {bs : List Byte} (h : bs.length = 7) :
    decodesDateTime bs (dtDecode bs) := by
  match bs, h with
  | [b0, b1, b2, b3, b4, b5, b6], _ =>
    exact ⟨b0, b1, b2, b3, b4, b5, b6, rfl, bcdDecode_and_7F b0, bcdDecode_eq b1,
      decodesHour_hoursDecode b2, rfl, bcdDecode_eq b4, bcdDecode_eq b5, yearDecode_eq b6⟩

theorem imagesDateTime_dtPayload (r0 : Byte) {dt : DateTime} (h : inRanges dt) :
    imagesDateTime r0 dt (dtPayload r0 dt) := by
  have hy : yearOk dt.year = true := by simpa [yearOk] using h.1
  obtain ⟨-, hmo, hd, -, hh, hmi, hs⟩ := h
  refine ⟨_, _, _, _, _, _, _, rfl, ?_, bcdEncode_toNat_of_le (by omega), encodesHour_hourByte hh, rfl,
    bcdEncode_toNat_of_le (by omega), bcdEncode_toNat_of_le (by omega), yearByte_toNat hy⟩
  rw [toNat_secondsByte r0 hs, bcdEncode_toNat_of_le (by omega)]

/-- Every admissible calendar check implies the ranges (R162). -/
theorem dtRangesOk_of_calSane {c : CalCheck} {dt : DateTime} (h : calSane c dt = true) :
    dtRangesOk dt = true := by
  cases c <;> simp only [calSane, Bool.and_eq_true] at h
  · exact h
  · exact h.1
  · exact h.1

/-! ## The square-wave register -/

/-- The rate read is the rate whose code the selector holds (R187). -/
theorem rateCode_rateOf (r : Byte) : rateCode (rateOf r) = r &&& maskRS := by
  revert r; decide

theorem rateOf_rateCode (rate : Rate) : rateOf (rateCode rate) = rate := by
  cases rate <;> decide

/-- Only the selector changes (R186). -/
theorem withRate_keeps (r : Byte) (rate : Rate) : withRate r rate &&& ~~~maskRS = r &&& ~~~maskRS := by
  cases rate <;> revert r <;> decide

theorem withRate_selects (r : Byte) (rate : Rate) : withRate r rate &&& maskRS = rateCode rate := by
  cases rate <;> revert r <;> decide

end Sys2Proof.Machine
end

