-- ==== Sys2Proof/Laws/Memory.lean ====
section
/-! SUPPORT. The laws of the register space: reading after writing, and that every operation keeps the
canonical form. -/

namespace Sys2Proof.Machine

/-! ## Reading after writing -/

@[simp] theorem Memory.get_nil (a : Nat) : Memory.get [] a = Memory.unlisted := rfl

theorem Memory.get_cons (b : Nat) (w : Byte) (m : Memory) (a : Nat) :
    Memory.get ((b, w) :: m) a = if b = a then w else m.get a := rfl

theorem Memory.get_erase (m : Memory) (a x : Nat) :
    (m.erase a).get x = if x = a then Memory.unlisted else m.get x := by
  induction m with
  | nil => simp [Memory.erase]
  | cons c m ih =>
    obtain ⟨b, w⟩ := c
    simp only [Memory.erase, List.filter_cons] at ih ⊢
    by_cases hb : b = a <;> by_cases hx : x = a <;> by_cases hbx : b = x <;>
      simp_all [Memory.get_cons]

theorem Memory.get_insertCell (m : Memory) (a x : Nat) (v : Byte)
    (h : ∀ c ∈ m, c.1 ≠ a) :
    (Memory.insertCell a v m).get x = if x = a then v else m.get x := by
  induction m with
  | nil =>
    rw [Memory.insertCell, Memory.get_cons]
    by_cases hx : x = a
    · rw [if_pos hx.symm, if_pos hx]
    · rw [if_neg (Ne.symm hx), if_neg hx]
  | cons c m ih =>
    obtain ⟨b, w⟩ := c
    have hb : b ≠ a := h (b, w) (by simp)
    have ih := ih fun c hc => h c (by simp [hc])
    unfold Memory.insertCell
    split
    · rw [Memory.get_cons]
      by_cases hx : x = a
      · rw [if_pos hx.symm, if_pos hx]
      · rw [if_neg (Ne.symm hx), if_neg hx]
    · rw [Memory.get_cons, Memory.get_cons, ih]
      by_cases hbx : b = x
      · rw [if_pos hbx, if_pos hbx, if_neg (hbx ▸ hb)]
      · rw [if_neg hbx, if_neg hbx]

theorem Memory.ne_of_mem_erase {m : Memory} {a : Nat} {c : Host.Cell} (h : c ∈ m.erase a) :
    c.1 ≠ a := by
  simpa using (List.mem_filter.mp h).2

/-- A read after a write gives the value written at its address, and every other register is as
before. -/
theorem Memory.get_set (m : Memory) (a x : Nat) (v : Byte) :
    (m.set a v).get x = if x = a then v else m.get x := by
  unfold Memory.set
  by_cases hv : v = Memory.unlisted
  · simp [hv, Memory.get_erase]
  · rw [if_neg hv, Memory.get_insertCell _ _ _ _ fun c hc => Memory.ne_of_mem_erase hc]
    by_cases hx : x = a <;> simp [hx, Memory.get_erase]

@[simp] theorem Memory.get_set_same (m : Memory) (a : Nat) (v : Byte) : (m.set a v).get a = v := by
  simp [Memory.get_set]

theorem Memory.get_set_other (m : Memory) {a x : Nat} (v : Byte) (h : x ≠ a) :
    (m.set a v).get x = m.get x := by
  simp [Memory.get_set, h]

theorem Memory.get_writeSpan (m : Memory) (a x : Nat) (data : List Byte) :
    (m.writeSpan a data).get x =
      if a ≤ x ∧ x < a + data.length then data.getD (x - a) 0 else m.get x := by
  induction data generalizing m a with
  | nil =>
    have : ¬ (a ≤ x ∧ x < a + ([] : List Byte).length) := by simp only [List.length_nil]; omega
    rw [if_neg this]; rfl
  | cons v rest ih =>
    rw [Memory.writeSpan, ih, Memory.get_set]
    by_cases h : a + 1 ≤ x ∧ x < a + 1 + rest.length
    · have h' : a ≤ x ∧ x < a + (v :: rest).length := by simp only [List.length_cons]; omega
      obtain ⟨k, hk⟩ : ∃ k, x - a = k + 1 := ⟨x - a - 1, by omega⟩
      rw [if_pos h, if_pos h', hk, show x - (a + 1) = k by omega]
      simp
    · rw [if_neg h]
      by_cases hx : x = a
      · have h' : a ≤ x ∧ x < a + (v :: rest).length := by simp only [List.length_cons]; omega
        simp [hx]
      · have h' : ¬ (a ≤ x ∧ x < a + (v :: rest).length) := by simp only [List.length_cons]; omega
        rw [if_neg hx, if_neg h']

/-- Registers outside the written span are as before. -/
theorem Memory.get_writeSpan_outside (m : Memory) {a x : Nat} {data : List Byte}
    (h : ¬ (a ≤ x ∧ x < a + data.length)) : (m.writeSpan a data).get x = m.get x := by
  rw [Memory.get_writeSpan, if_neg h]

@[simp] theorem Memory.length_readSpan (m : Memory) (a n : Nat) : (m.readSpan a n).length = n := by
  induction n generalizing a with
  | zero => rfl
  | succ n ih => simp [Memory.readSpan, ih]

theorem Memory.getD_readSpan (m : Memory) (a n i : Nat) (d : Byte) (h : i < n) :
    (m.readSpan a n).getD i d = m.get (a + i) := by
  induction n generalizing a i with
  | zero => omega
  | succ n ih =>
    cases i with
    | zero => simp [Memory.readSpan]
    | succ i =>
      have := ih (a + 1) i (by omega)
      simpa [Memory.readSpan, Nat.add_assoc, Nat.add_comm 1 i] using this

@[simp] theorem Memory.readSpan_one (m : Memory) (a : Nat) : m.readSpan a 1 = [m.get a] := rfl

theorem Memory.readSpan_congr {m m' : Memory} (a n : Nat)
    (h : ∀ x, a ≤ x → x < a + n → m.get x = m'.get x) : m.readSpan a n = m'.readSpan a n := by
  induction n generalizing a with
  | zero => rfl
  | succ n ih =>
    simp only [Memory.readSpan]
    rw [h a (by omega) (by omega), ih (a + 1) fun x h1 h2 => h x (by omega) (by omega)]

/-- Reading the span just written gives the bytes written. -/
theorem Memory.readSpan_writeSpan (m : Memory) (a : Nat) (data : List Byte) :
    (m.writeSpan a data).readSpan a data.length = data := by
  induction data generalizing m a with
  | nil => rfl
  | cons v rest ih =>
    simp only [List.length_cons, Memory.readSpan, Memory.writeSpan]
    rw [ih, Memory.get_writeSpan_outside _ (by omega), Memory.get_set_same]

/-! ## The canonical form -/

theorem Memory.wfFrom_mono {lo lo' : Nat} {m : Memory} (h : lo' ≤ lo)
    (hm : Memory.wfFrom lo m = true) : Memory.wfFrom lo' m = true := by
  cases m with
  | nil => rfl
  | cons c m =>
    obtain ⟨a, v⟩ := c
    simp only [Memory.wfFrom, Bool.and_eq_true, decide_eq_true_eq] at hm ⊢
    exact ⟨⟨⟨by omega, hm.1.1.2⟩, hm.1.2⟩, hm.2⟩

theorem Memory.wfFrom_erase {lo : Nat} {m : Memory} (a : Nat)
    (hm : Memory.wfFrom lo m = true) : Memory.wfFrom lo (m.erase a) = true := by
  induction m generalizing lo with
  | nil => rfl
  | cons c m ih =>
    obtain ⟨b, w⟩ := c
    simp only [Memory.wfFrom, Bool.and_eq_true, decide_eq_true_eq] at hm
    have ih := ih hm.2
    simp only [Memory.erase, List.filter_cons] at ih ⊢
    split
    · simp only [Memory.wfFrom, Bool.and_eq_true, decide_eq_true_eq]
      exact ⟨hm.1, ih⟩
    · exact Memory.wfFrom_mono (by omega) ih

theorem Memory.wfFrom_insertCell {lo : Nat} {m : Memory} {a : Nat} {v : Byte} (hlo : lo ≤ a)
    (ha : a < 0x40) (hv : v ≠ Memory.unlisted) (hne : ∀ c ∈ m, c.1 ≠ a)
    (hm : Memory.wfFrom lo m = true) : Memory.wfFrom lo (Memory.insertCell a v m) = true := by
  induction m generalizing lo with
  | nil => simp [Memory.insertCell, Memory.wfFrom, hlo, ha, hv]
  | cons c m ih =>
    obtain ⟨b, w⟩ := c
    have hb : b ≠ a := hne (b, w) (by simp)
    simp only [Memory.wfFrom, Bool.and_eq_true, decide_eq_true_eq] at hm
    unfold Memory.insertCell
    split
    · simp only [Memory.wfFrom, Bool.and_eq_true, decide_eq_true_eq]
      exact ⟨⟨⟨hlo, ha⟩, by simpa using hv⟩, ⟨⟨by omega, hm.1.1.2⟩, hm.1.2⟩, hm.2⟩
    · simp only [Memory.wfFrom, Bool.and_eq_true, decide_eq_true_eq]
      exact ⟨hm.1, ih (by omega) (fun c hc => hne c (by simp [hc])) hm.2⟩

/-- A write inside the register space keeps the canonical form. -/
theorem Memory.wf_set {m : Memory} {a : Nat} (v : Byte) (ha : a < 0x40) (hm : m.wf = true) :
    (m.set a v).wf = true := by
  unfold Memory.set
  split
  · exact Memory.wfFrom_erase a hm
  · exact Memory.wfFrom_insertCell (Nat.zero_le a) ha ‹_› (fun c hc => Memory.ne_of_mem_erase hc)
      (Memory.wfFrom_erase a hm)

/-- Writing a span inside the register space keeps the canonical form. -/
theorem Memory.wf_writeSpan {m : Memory} {a : Nat} {data : List Byte} (h : a + data.length ≤ 0x40)
    (hm : m.wf = true) : (m.writeSpan a data).wf = true := by
  induction data generalizing m a with
  | nil => exact hm
  | cons v rest ih =>
    simp only [List.length_cons] at h
    exact ih (by omega) (Memory.wf_set v (by omega) hm)

/-- The timekeeper's act keeps the canonical form. -/
theorem Memory.wf_tick {m : Memory} (k : Timekeeper) (t : Option Tick) (hm : m.wf = true) :
    (m.tick k t).wf = true := by
  cases k with
  | frozen => exact hm
  | free =>
    cases t with
    | none => exact hm
    | some t => exact Memory.wf_writeSpan (by simp) hm

/-- The memory at launch is canonical. -/
theorem Memory.wf_nil : Memory.wf [] = true := rfl

/-- A canonical memory lists no entry below its bound. -/
theorem Memory.get_of_lt_wfFrom {lo : Nat} {m : Memory} (hm : Memory.wfFrom lo m = true) {a : Nat}
    (h : a < lo) : m.get a = Memory.unlisted := by
  induction m generalizing lo with
  | nil => rfl
  | cons c m ih =>
    obtain ⟨b, w⟩ := c
    simp only [Memory.wfFrom, Bool.and_eq_true, decide_eq_true_eq] at hm
    rw [Memory.get_cons, if_neg (by omega)]
    exact ih hm.2 (by omega)

theorem Memory.ext_wfFrom {lo : Nat} {m m' : Memory} (hm : Memory.wfFrom lo m = true)
    (hm' : Memory.wfFrom lo m' = true) (h : ∀ a, lo ≤ a → m.get a = m'.get a) : m = m' := by
  induction m generalizing lo m' with
  | nil =>
    cases m' with
    | nil => rfl
    | cons c m' =>
      obtain ⟨b, w⟩ := c
      simp only [Memory.wfFrom, Bool.and_eq_true, decide_eq_true_eq, bne_iff_ne] at hm'
      have := h b (by omega)
      rw [Memory.get_cons, if_pos rfl] at this
      exact absurd this.symm hm'.1.2
  | cons c m ih =>
    obtain ⟨a, v⟩ := c
    simp only [Memory.wfFrom, Bool.and_eq_true, decide_eq_true_eq, bne_iff_ne] at hm
    cases m' with
    | nil =>
      have := h a (by omega)
      rw [Memory.get_cons, if_pos rfl] at this
      exact absurd this hm.1.2
    | cons c m' =>
      obtain ⟨b, w⟩ := c
      simp only [Memory.wfFrom, Bool.and_eq_true, decide_eq_true_eq, bne_iff_ne] at hm'
      have ha := h a (by omega)
      have hb := h b (by omega)
      rw [Memory.get_cons, Memory.get_cons, if_pos rfl] at ha
      rw [Memory.get_cons, Memory.get_cons, if_pos (rfl : b = b)] at hb
      have hab : a = b := by
        by_contra hne
        rcases Nat.lt_or_gt_of_ne hne with hlt | hlt
        · rw [if_neg (Ne.symm hne), Memory.get_of_lt_wfFrom hm'.2 (by omega)] at ha
          exact hm.1.2 ha
        · rw [if_neg hne, Memory.get_of_lt_wfFrom hm.2 (by omega)] at hb
          exact hm'.1.2 hb.symm
      subst hab
      rw [if_pos rfl] at ha
      subst ha
      congr 1
      refine ih hm.2 hm'.2 fun x hx => ?_
      have := h x (by omega)
      rwa [Memory.get_cons, Memory.get_cons, if_neg (by omega), if_neg (by omega)] at this

/-- Two canonical memories that read alike everywhere are equal data. -/
theorem Memory.ext_wf {m m' : Memory} (hm : m.wf = true) (hm' : m'.wf = true)
    (h : ∀ a, m.get a = m'.get a) : m = m' :=
  Memory.ext_wfFrom hm hm' fun a _ => h a

end Sys2Proof.Machine
end

