-- ==== Sys2Proof/Laws/State.lean ====
section
/-! SUPPORT. One lemma per field per update of State: what each update leaves in each field. -/

namespace Sys2Proof.Machine

variable (s : State) (e : BusEvent) (m : Memory) (r : Response) (bs : List Byte)

@[simp] theorem State.begin_params : s.begin.params = s.params := rfl
@[simp] theorem State.begin_mem : s.begin.mem = s.busMem 0 := rfl
@[simp] theorem State.begin_input : s.begin.input = s.input := rfl
@[simp] theorem State.begin_port : s.begin.port = s.port := rfl
@[simp] theorem State.begin_output : s.begin.output = s.output := rfl
@[simp] theorem State.begin_trace : s.begin.trace = s.trace := rfl
@[simp] theorem State.begin_turns : s.begin.turns = s.turns.tail := rfl
@[simp] theorem State.begin_draws : s.begin.draws = s.draws + 1 := rfl

@[simp] theorem State.record_params : (s.record e).params = s.params := rfl
@[simp] theorem State.record_mem : (s.record e).mem = s.mem := rfl
@[simp] theorem State.record_input : (s.record e).input = s.input := rfl
@[simp] theorem State.record_port : (s.record e).port = s.port := rfl
@[simp] theorem State.record_output : (s.record e).output = s.output := rfl
@[simp] theorem State.record_trace : (s.record e).trace = s.trace ++ [e] := rfl
@[simp] theorem State.record_turns : (s.record e).turns = s.turns := rfl
@[simp] theorem State.record_draws : (s.record e).draws = s.draws := rfl

@[simp] theorem State.withMem_params : (s.withMem m).params = s.params := rfl
@[simp] theorem State.withMem_mem : (s.withMem m).mem = m := rfl
@[simp] theorem State.withMem_input : (s.withMem m).input = s.input := rfl
@[simp] theorem State.withMem_port : (s.withMem m).port = s.port := rfl
@[simp] theorem State.withMem_output : (s.withMem m).output = s.output := rfl
@[simp] theorem State.withMem_trace : (s.withMem m).trace = s.trace := rfl
@[simp] theorem State.withMem_turns : (s.withMem m).turns = s.turns := rfl
@[simp] theorem State.withMem_draws : (s.withMem m).draws = s.draws := rfl

@[simp] theorem State.respond_params : (s.respond r).params = s.params := rfl
@[simp] theorem State.respond_mem : (s.respond r).mem = s.mem := rfl
@[simp] theorem State.respond_input : (s.respond r).input = s.input := rfl
@[simp] theorem State.respond_port : (s.respond r).port = s.port := rfl
@[simp] theorem State.respond_output : (s.respond r).output = s.output ++ [r] := rfl
@[simp] theorem State.respond_trace : (s.respond r).trace = s.trace := rfl
@[simp] theorem State.respond_turns : (s.respond r).turns = s.turns := rfl
@[simp] theorem State.respond_draws : (s.respond r).draws = s.draws := rfl

@[simp] theorem State.hang_params : s.hang.params = s.params := rfl
@[simp] theorem State.hang_mem : s.hang.mem = s.mem := rfl
@[simp] theorem State.hang_input : s.hang.input = s.input := rfl
@[simp] theorem State.hang_port : s.hang.port = .hung := rfl
@[simp] theorem State.hang_output : s.hang.output = s.output := rfl
@[simp] theorem State.hang_trace : s.hang.trace = s.trace := rfl
@[simp] theorem State.hang_turns : s.hang.turns = s.turns := rfl
@[simp] theorem State.hang_draws : s.hang.draws = s.draws := rfl

@[simp] theorem State.accept_params : (s.accept bs).params = s.params := rfl
@[simp] theorem State.accept_mem : (s.accept bs).mem = s.mem := rfl
@[simp] theorem State.accept_input : (s.accept bs).input = bs := rfl
@[simp] theorem State.accept_port : (s.accept bs).port = s.port := rfl
@[simp] theorem State.accept_output : (s.accept bs).output = s.output := rfl
@[simp] theorem State.accept_trace : (s.accept bs).trace = s.trace := rfl
@[simp] theorem State.accept_turns : (s.accept bs).turns = s.turns := rfl
@[simp] theorem State.accept_draws : (s.accept bs).draws = s.draws := rfl

@[simp] theorem State.present_params : (s.present bs).params = s.params := rfl
@[simp] theorem State.present_mem : (s.present bs).mem = s.mem := rfl
@[simp] theorem State.present_input : (s.present bs).input = bs := rfl
@[simp] theorem State.present_port : (s.present bs).port = .idle := rfl
@[simp] theorem State.present_output : (s.present bs).output = s.output := rfl
@[simp] theorem State.present_trace : (s.present bs).trace = s.trace := rfl
@[simp] theorem State.present_turns : (s.present bs).turns = s.turns := rfl
@[simp] theorem State.present_draws : (s.present bs).draws = s.draws := rfl

end Sys2Proof.Machine
end

