-- ==== Sys2Proof/Laws/Ops.lean ====
section
/-! SUPPORT. What each shared operation does, said once: the turns, the parts of an operation, the two
bus primitives, and whole operations of each transaction shape. -/

namespace Sys2Proof.Machine

/-! ## Turns -/

@[simp] theorem State.turnAt_begin (s : State) (k : Nat) : s.begin.turnAt k = s.turnAt (k + 1) := by
  simp only [State.turnAt, State.begin_turns, State.begin_draws, List.getElem?_tail]
  rw [Nat.add_assoc, Nat.add_comm 1 k]

@[simp] theorem State.turnAt_record (s : State) (e : BusEvent) (k : Nat) :
    (s.record e).turnAt k = s.turnAt k := rfl

@[simp] theorem State.turnAt_withMem (s : State) (m : Memory) (k : Nat) :
    (s.withMem m).turnAt k = s.turnAt k := rfl

@[simp] theorem State.turnAt_respond (s : State) (r : Response) (k : Nat) :
    (s.respond r).turnAt k = s.turnAt k := rfl

@[simp] theorem State.turnAt_accept (s : State) (bs : List Byte) (k : Nat) :
    (s.accept bs).turnAt k = s.turnAt k := rfl

theorem State.turnAt_listed {s : State} {k : Nat} {t : Turn} (h : s.turns[k]? = some t) :
    s.turnAt k = t := by
  simp [State.turnAt, h]

/-- After `k` transactions the coming turns are those from number `k` on. -/
theorem State.turnAt_of_drop {s t : State} {k : Nat} (h : t.turns = s.turns.drop k)
    (hd : t.draws = s.draws + k) (j : Nat) : t.turnAt j = s.turnAt (k + j) := by
  simp only [State.turnAt, h, hd, List.getElem?_drop, Nat.add_assoc]

theorem State.busMem_zero (s : State) :
    s.busMem 0 = s.mem.tick s.params.timekeeper (s.turnAt 0).tick := rfl

theorem State.busMem_succ (s : State) (k : Nat) :
    s.busMem (k + 1) = (s.busMem k).tick s.params.timekeeper (s.turnAt (k + 1)).tick := rfl

@[simp] theorem State.busMem_record (s : State) (e : BusEvent) (k : Nat) :
    (s.record e).busMem k = s.busMem k := by
  induction k with
  | zero => rfl
  | succ k ih => simp [State.busMem_succ, ih]

@[simp] theorem State.busMem_accept (s : State) (bs : List Byte) (k : Nat) :
    (s.accept bs).busMem k = s.busMem k := by
  induction k with
  | zero => rfl
  | succ k ih => simp [State.busMem_succ, ih]

@[simp] theorem State.busMem_begin (s : State) (k : Nat) : s.begin.busMem k = s.busMem (k + 1) := by
  induction k with
  | zero => simp [State.busMem]
  | succ k ih => rw [State.busMem_succ, ih]; simp [State.busMem_succ]

/-! ## The timekeeper -/

@[simp] theorem Memory.tick_frozen (m : Memory) (t : Option Tick) : m.tick .frozen t = m := rfl

@[simp] theorem Memory.tick_none (m : Memory) (k : Timekeeper) : m.tick k none = m := by
  cases k <;> rfl

/-- The timekeeper never changes the halt bit, REG_SQW or the RAM window (R64). -/
theorem timekeeperKeeps_tick (m : Memory) (k : Timekeeper) (t : Option Tick) :
    timekeeperKeeps m (m.tick k t) := by
  cases k with
  | frozen => exact ⟨rfl, fun _ _ => rfl⟩
  | free =>
    cases t with
    | none => exact ⟨rfl, fun _ _ => rfl⟩
    | some t =>
      refine ⟨?_, fun a ha => ?_⟩
      · simp only [Memory.tick, Memory.get_writeSpan]
        simp
      · exact Memory.get_writeSpan_outside _ (by simp; omega)

/-- Under a frozen timekeeper no turn changes the register space (R64). -/
theorem State.busMem_frozen (s : State) (h : s.params.timekeeper = .frozen) (k : Nat) :
    s.busMem k = s.mem := by
  induction k with
  | zero => simp [State.busMem, h]
  | succ k ih => simp [State.busMem, h, ih]

/-! ## Parts of an operation -/

theorem ret_apply {α : Type} (a : α) (s : State) : ret a s = (.value a, s) := rfl

theorem raise_apply {α : Type} (e : OpError) (s : State) : (raise e : Action α) s = (.raised e, s) := rfl

theorem Action.andThen_value {α β : Type} {first : Action α} {rest : α → Action β} {s s' : State}
    {a : α} (h : first s = (.value a, s')) : first.andThen rest s = rest a s' := by
  simp [Action.andThen, h]

theorem Action.andThen_raised {α β : Type} {first : Action α} {rest : α → Action β} {s s' : State}
    {e : OpError} (h : first s = (.raised e, s')) : first.andThen rest s = (.raised e, s') := by
  simp [Action.andThen, h]

theorem Action.andThen_hung {α β : Type} {first : Action α} {rest : α → Action β} {s s' : State}
    (h : first s = (.hung, s')) : first.andThen rest s = (.hung, s') := by
  simp [Action.andThen, h]

@[simp] theorem require_true {α : Type} (rest : Action α) : require true rest = rest := rfl

@[simp] theorem require_false {α : Type} (rest : Action α) :
    require false rest = raise .invalidInputData := rfl

theorem done_value {a : Action Unit} {s s' : State} (h : a s = (.value (), s')) :
    done a s = (.value .unit, s') := by
  rw [done, Action.andThen_value h, ret_apply]

theorem done_raised {a : Action Unit} {s s' : State} {e : OpError} (h : a s = (.raised e, s')) :
    done a s = (.raised e, s') := Action.andThen_raised h

theorem done_hung {a : Action Unit} {s s' : State} (h : a s = (.hung, s')) :
    done a s = (.hung, s') := Action.andThen_hung h

theorem perform_value {a : Action Value} {s s' : State} {v : Value} (h : a s = (.value v, s')) :
    perform a s = .next (s'.respond (.ok v)) := by
  simp [perform, h, deliver]

theorem perform_raised {a : Action Value} {s s' : State} {e : OpError} (h : a s = (.raised e, s')) :
    perform a s = .next (s'.respond (.error e)) := by
  simp [perform, h, deliver]

theorem perform_hung {a : Action Value} {s s' : State} (h : a s = (.hung, s')) :
    perform a s = .next s'.hang := by
  simp [perform, h, deliver]

/-! ## The bus primitives -/

theorem memRead_ok {s : State} (sp : Span) (h : (s.turnAt 0).answer = .ok) :
    memRead sp s =
      (.value ((s.busMem 0).readSpan sp.addr sp.len),
        s.begin.record (rdAt s sp.addr sp.len (.ok ((s.busMem 0).readSpan sp.addr sp.len)))) := by
  simp [memRead, h, State.readEvent, rdAt]

theorem memRead_fail {s : State} (sp : Span) {e : TransportError} (h : (s.turnAt 0).answer = .fail e) :
    memRead sp s =
      (.raised (.transport e), s.begin.record (rdAt s sp.addr sp.len (.fail e))) := by
  simp [memRead, h, State.readEvent, rdAt]

theorem memRead_never {s : State} (sp : Span) (h : (s.turnAt 0).answer = .never) :
    memRead sp s = (.hung, s.begin) := by
  simp [memRead, h]

theorem memWrite_ok {s : State} (p : Payload) (h : (s.turnAt 0).answer = .ok) :
    memWrite p s =
      (.value (), (s.begin.withMem ((s.busMem 0).writeSpan p.addr p.data)).record
        (wrAt s p.addr p.data .ok)) := by
  simp [memWrite, h, State.writeEvent, wrAt]

theorem memWrite_fail {s : State} (p : Payload) {e : TransportError}
    (h : (s.turnAt 0).answer = .fail e) :
    memWrite p s =
      (.raised (.transport e),
        (s.begin.withMem (s.memAfterFailedWrite p)).record (wrAt s p.addr p.data (.fail e))) := by
  simp [memWrite, h, State.writeEvent, wrAt]

theorem memWrite_never {s : State} (p : Payload) (h : (s.turnAt 0).answer = .never) :
    memWrite p s = (.hung, s.begin) := by
  simp [memWrite, h]

theorem readReg_ok {s : State} (r : Reg) (h : (s.turnAt 0).answer = .ok) :
    readReg r s =
      (.value ((s.busMem 0).get r.addr),
        s.begin.record (rdAt s r.addr 1 (.ok [(s.busMem 0).get r.addr]))) := by
  rw [readReg, Action.andThen_value (memRead_ok r.span h)]
  simp [ret, Reg.span]

theorem readReg_fail {s : State} (r : Reg) {e : TransportError} (h : (s.turnAt 0).answer = .fail e) :
    readReg r s = (.raised (.transport e), s.begin.record (rdAt s r.addr 1 (.fail e))) :=
  Action.andThen_raised (memRead_fail r.span h)

theorem readReg_never {s : State} (r : Reg) (h : (s.turnAt 0).answer = .never) :
    readReg r s = (.hung, s.begin) :=
  Action.andThen_hung (memRead_never r.span h)

@[simp] theorem State.length_leftovers (s : State) (n : Nat) : (s.leftovers n).length = n := by
  simp [State.leftovers]

/-- What a failed write leaves, whatever the free bytes are (R53). -/
theorem State.memAfterFailedWrite_spec (s : State) (p : Payload) :
    failedOver s.params.writeFailEffect (s.busMem 0) p.addr p.data.length
      (s.memAfterFailedWrite p) := by
  unfold State.memAfterFailedWrite
  cases s.params.writeFailEffect with
  | havocAddressed =>
    refine ⟨fun x hx => ?_, nofun⟩
    exact Memory.get_writeSpan_outside _ (by simpa using hx)
  | unchanged => exact ⟨fun _ _ => rfl, fun _ _ => rfl⟩

/-- A failed write keeps the canonical form. -/
theorem State.wf_memAfterFailedWrite {s : State} (p : Payload) (h : s.mem.wf = true) :
    (s.memAfterFailedWrite p).wf = true := by
  have hb : s.begin.mem.wf = true := Memory.wf_tick _ _ h
  unfold State.memAfterFailedWrite
  split
  · exact Memory.wf_writeSpan (by simpa using p.inside) hb
  · exact hb

theorem writtenOver_writeSpan (m : Memory) (a : Nat) (data : List Byte) :
    writtenOver m a data (m.writeSpan a data) := fun x => m.get_writeSpan a x data

/-- What was written over a span is read back from it (R59 item 3). -/
theorem readSpan_of_writtenOver {m m' : Memory} {a : Nat} {data : List Byte}
    (h : writtenOver m a data m') : m'.readSpan a data.length = data := by
  rw [← m.readSpan_writeSpan a data]
  simp only [Memory.readSpan_writeSpan]
  conv_rhs => rw [← m.readSpan_writeSpan a data]
  exact Memory.readSpan_congr a _ fun x _ _ => by rw [h x, m.get_writeSpan]

/-! ## Whole operations of each transaction shape -/

/-- An operation that issues no transaction and returns `v`. -/
theorem answers_of {i : Instr} {v : Value} (h : ∀ s, exec i s = perform (ret v) s) : Answers i v :=
  fun s => ⟨_, (h s).trans (perform_value rfl), by simp [sameRegs]⟩

/-- An operation that raises `InvalidInputData` at once. -/
theorem rejects_of {i : Instr} (h : ∀ s, exec i s = perform (raise .invalidInputData) s) : Rejects i :=
  fun s => ⟨_, (h s).trans (perform_raised rfl), by simp [sameRegs]⟩

/-- An operation that is one read, whose bytes then give a value or an error without a transaction. -/
theorem readsOnly_of {i : Instr} (sp : Span) {f : Params → List Byte → Response}
    {k : Params → List Byte → Action Value}
    (h : ∀ s, exec i s = perform ((memRead sp).andThen (k s.params)) s)
    (hk : ∀ p bs, (∃ v, f p bs = .ok v ∧ k p bs = ret v) ∨ (∃ e, f p bs = .error e ∧ k p bs = raise e)) :
    ReadsOnly i sp.addr sp.len f := by
  refine fun s => ⟨?_, ?_⟩
  · rintro ha _ rfl
    have hr := Action.andThen_value (rest := k s.params) (memRead_ok sp ha)
    rcases hk s.params ((s.busMem 0).readSpan sp.addr sp.len) with ⟨v, hf, hv⟩ | ⟨e, hf, he⟩
    · exact ⟨_, (h s).trans (perform_value (hr.trans (by rw [hv, ret_apply]))), by
        simp [sameRegs, hf, List.drop_one]⟩
    · exact ⟨_, (h s).trans (perform_raised (hr.trans (by rw [he, raise_apply]))), by
        simp [sameRegs, hf, List.drop_one]⟩
  · intro e ha
    exact ⟨_, (h s).trans (perform_raised (Action.andThen_raised (memRead_fail sp ha))), by
      simp [sameRegs, List.drop_one]⟩

/-- An operation that is one read of a register, whose byte gives its value. -/
theorem queries_of {i : Instr} (r : Reg) {f : Byte → Value}
    (h : ∀ s, exec i s = perform ((readReg r).andThen fun b => ret (f b)) s) : Queries i r.addr f := by
  refine fun s => ⟨?_, ?_⟩
  · rintro ha _ rfl
    exact ⟨_, (h s).trans (perform_value ((Action.andThen_value (readReg_ok r ha)).trans
      (ret_apply _ _))), by simp [sameRegs, List.drop_one]⟩
  · intro e ha
    exact ⟨_, (h s).trans (perform_raised (Action.andThen_raised (readReg_fail r ha))), by
      simp [sameRegs, List.drop_one]⟩

/-- An operation that is one write. -/
theorem writesOnly_of {i : Instr} (p : Payload) (h : ∀ s, exec i s = perform (done (memWrite p)) s) :
    WritesOnly i p.addr p.data := by
  refine fun s => ⟨fun ha => ?_, fun e ha => ?_⟩
  · refine ⟨_, (h s).trans (perform_value (done_value (memWrite_ok p ha))), ?_⟩
    simpa [List.drop_one] using writtenOver_writeSpan _ _ _
  · refine ⟨_, (h s).trans (perform_raised (done_raised (memWrite_fail p ha))), ?_⟩
    simpa [List.drop_one] using s.memAfterFailedWrite_spec p

/-- An operation that is one read of a register and then perhaps one write at its address. -/
theorem readsThenWrites_of {i : Instr} (r : Reg) {f : Byte → Option (List Byte)}
    {k : Byte → Action Unit} (h : ∀ s, exec i s = perform (done ((readReg r).andThen k)) s)
    (hk : ∀ b, (f b = none ∧ k b = ret ()) ∨
      (∃ p : Payload, f b = some p.data ∧ p.addr = r.addr ∧ k b = memWrite p)) :
    ReadsThenWrites i r.addr f := by
  rintro s _ rfl
  have hwr : ∀ e a d o, wrAt (s.begin.record e) a d o = wrAt s a d o := fun _ _ _ _ => rfl
  refine ⟨fun ha hf => ?_, fun data ha hf hb => ?_, fun e ha => ?_, fun data e ha hf hb => ?_⟩
  · rcases hk ((s.busMem 0).get r.addr) with ⟨-, hk⟩ | ⟨p, hf', -, -⟩
    · exact ⟨_, (h s).trans (perform_value (done_value ((Action.andThen_value (readReg_ok r ha)).trans
        (by rw [hk, ret_apply])))), by simp [sameRegs, List.drop_one]⟩
    · rw [hf] at hf'; cases hf'
  · rcases hk ((s.busMem 0).get r.addr) with ⟨hf', -⟩ | ⟨p, hf', hp, hk⟩
    · rw [hf] at hf'; cases hf'
    · rw [hf] at hf'; cases hf'
      refine ⟨_, (h s).trans (perform_value (done_value ((Action.andThen_value (readReg_ok r ha)).trans
        (by rw [hk, memWrite_ok p (by simpa using hb)])))), ?_⟩
      simpa [hwr, hp, List.drop_tail, ← List.drop_one] using writtenOver_writeSpan _ _ _
  · exact ⟨_, (h s).trans (perform_raised (done_raised (Action.andThen_raised (readReg_fail r ha)))), by
      simp [sameRegs, List.drop_one]⟩
  · rcases hk ((s.busMem 0).get r.addr) with ⟨hf', -⟩ | ⟨p, hf', hp, hk⟩
    · rw [hf] at hf'; cases hf'
    · rw [hf] at hf'; cases hf'
      refine ⟨_, (h s).trans (perform_raised (done_raised ((Action.andThen_value
        (readReg_ok r ha)).trans (by rw [hk, memWrite_fail p (by simpa using hb)])))), ?_⟩
      have hs := (s.begin.record
        (rdAt s r.addr 1 (.ok [(s.busMem 0).get r.addr]))).memAfterFailedWrite_spec p
      simpa [hwr, hp, List.drop_tail, ← List.drop_one] using hs

end Sys2Proof.Machine
end

