-- ==== Sys2Proof/Laws/Exec.lean ====
section
/-! SUPPORT. Said once for all instructions: which transactions an instruction issues (`exec_shape`), and
what a next state of `exec` can be (`exec_ran`). Claims about every instruction follow from these two. -/

namespace Sys2Proof.Machine

/-- The five transaction shapes of R245 and R250: none and success, none and rejection, one read, one
write, one read and then perhaps one write. -/
inductive Shape (i : Instr) : Prop where
  | answers (v : Value) (h : ∀ s, exec i s = perform (ret v) s) (admitted : ¬ i.rejected)
      (request : i.firstRequest = none)
  | rejects (h : ∀ s, exec i s = perform (raise .invalidInputData) s) (rejected : i.rejected)
  | reads (sp : Span) (k : Params → List Byte → Action Value)
      (h : ∀ s, exec i s = perform ((memRead sp).andThen (k s.params)) s)
      (pure : ∀ p bs, (∃ v, k p bs = ret v) ∨
        (k p bs = raise .invalidInputData ∧ i = .getDatetime))
      (admitted : ¬ i.rejected) (request : i.firstRequest = some (.read sp.addr sp.len))
      (listed : listedSpan sp.addr sp.len)
  | writes (p : Payload) (h : ∀ s, exec i s = perform (done (memWrite p)) s)
      (admitted : ¬ i.rejected) (request : i.firstRequest = some (.write p.addr p.data))
      (listed : listedSpan p.addr p.data.length)
      (owned : ∀ x, p.addr ≤ x → x < p.addr + p.data.length → i.mayWrite x)
      (whole : ∀ x, p.addr ≤ x → x < p.addr + p.data.length → i.ownedBits x = 0xFF)
  | readsThenWrites (r : Reg) (k : Byte → Option Payload)
      (h : ∀ s, exec i s = perform (done ((readReg r).andThen fun b =>
        match k b with
        | none => ret ()
        | some p => memWrite p)) s)
      (admitted : ¬ i.rejected) (request : i.firstRequest = some (.read r.addr 1))
      (listed : ∀ b p, k b = some p → listedSpan p.addr p.data.length)
      (owned : ∀ b p, k b = some p → ∀ x, p.addr ≤ x → x < p.addr + p.data.length → i.mayWrite x)
      (keeps : ∀ b p, k b = some p → ∀ x, p.addr ≤ x → x < p.addr + p.data.length →
        i.ownedBits x = 0xFF ∨ (x = r.addr ∧
          p.data.getD (x - p.addr) 0 &&& ~~~i.ownedBits x = b &&& ~~~i.ownedBits x))

theorem Action.andThen_ret {α β γ : Type} (a : Action α) (f : α → β) (g : β → Action γ) :
    (a.andThen fun x => ret (f x)).andThen g = a.andThen fun x => g (f x) := by
  funext s
  simp only [Action.andThen]
  rcases a s with ⟨_ | _ | _, s'⟩ <;> rfl

@[simp] theorem Action.ret_andThen {α β : Type} (a : α) (f : α → Action β) :
    (ret a).andThen f = f a := rfl

theorem listedSpan_reg (r : Reg) : listedSpan r.addr 1 :=
  .inl ⟨by have := r.addr_lt; omega, rfl⟩

theorem shape_of_query {i : Instr} (r : Reg) (f : Byte → Value)
    (h : ∀ s, exec i s = perform ((readReg r).andThen fun b => ret (f b)) s)
    (admitted : ¬ i.rejected) (request : i.firstRequest = some (.read r.addr 1)) : Shape i :=
  .reads r.span (fun _ bs => ret (f (bs.getD 0 0)))
    (fun s => (h s).trans (by rw [readReg, Action.andThen_ret])) (fun _ _ => .inl ⟨_, rfl⟩) admitted
    request (listedSpan_reg r)

theorem shape_of_regWrite {i : Instr} (r : Reg) (x : Byte)
    (h : ∀ s, exec i s = perform (done (writeReg r x)) s) (admitted : ¬ i.rejected)
    (request : i.firstRequest = some (.write r.addr [x])) (owned : i.mayWrite r.addr)
    (whole : i.ownedBits r.addr = 0xFF) : Shape i := by
  have hx : ∀ y, (r.payload x).addr ≤ y → y < (r.payload x).addr + (r.payload x).data.length →
      y = r.addr := fun y h1 h2 => by
    simp only [Reg.payload, List.length_singleton] at h1 h2; omega
  exact .writes (r.payload x) h admitted request (listedSpan_reg r)
    (fun y h1 h2 => by rwa [hx y h1 h2]) (fun y h1 h2 => by rwa [hx y h1 h2])

theorem shape_of_regUpdate {i : Instr} (r : Reg) (c : Byte → Bool) (f : Byte → Byte)
    (h : ∀ s, exec i s = perform (done ((readReg r).andThen fun b =>
      if c b = true then writeReg r (f b) else ret ())) s) (admitted : ¬ i.rejected)
    (request : i.firstRequest = some (.read r.addr 1)) (owned : i.mayWrite r.addr)
    (keeps : ∀ b, f b &&& ~~~i.ownedBits r.addr = b &&& ~~~i.ownedBits r.addr) : Shape i := by
  have hp : ∀ b p, (if c b = true then some (r.payload (f b)) else none) = some p →
      p = r.payload (f b) := fun b p hp => by
    simp only [Option.ite_none_right_eq_some, Option.some.injEq] at hp
    exact hp.2.symm
  have hx : ∀ b y, (r.payload (f b)).addr ≤ y →
      y < (r.payload (f b)).addr + (r.payload (f b)).data.length → y = r.addr := fun b y h1 h2 => by
    simp only [Reg.payload, List.length_singleton] at h1 h2; omega
  refine .readsThenWrites r (fun b => if c b = true then some (r.payload (f b)) else none)
    (fun s => (h s).trans (by
      congr 3; funext b
      by_cases hc : c b = true <;> simp [hc, writeReg]))
    admitted request (fun b p h => ?_) (fun b p h y h1 h2 => ?_) fun b p h y h1 h2 => ?_
  · rw [hp b p h]; exact listedSpan_reg r
  · rw [hp b p h] at h1 h2; rwa [hx b y h1 h2]
  · rw [hp b p h] at h1 h2 ⊢
    refine .inr ⟨hx b y h1 h2, ?_⟩
    rw [hx b y h1 h2]
    simpa [Reg.payload] using keeps b

theorem flag_set_keeps (b m : Byte) : (b ||| m) &&& ~~~m = b &&& ~~~m := by
  apply BitVec.eq_of_getLsbD_eq
  intro i hi
  simp only [BitVec.getLsbD_and, BitVec.getLsbD_or, BitVec.getLsbD_not, hi]
  cases b.getLsbD i <;> cases m.getLsbD i <;> rfl

theorem flag_clear_keeps (b m : Byte) : (b &&& ~~~m) &&& ~~~m = b &&& ~~~m := by
  rw [BitVec.and_assoc, BitVec.and_self]

theorem secondsByte_keeps (r v : Byte) (h : v.toNat ≤ 59) :
    secondsByte r v &&& ~~~0x7F = r &&& ~~~0x7F := secondsByte_and_80 r h

theorem shape_of_setter {i : Instr} {ok : Bool} {a : Action Unit}
    (h : ∀ s, exec i s = perform (done (require ok a)) s) (hr : i.rejected ↔ ok = false)
    (hok : ok = true → (∀ s, exec i s = perform (done a) s) → ¬ i.rejected → Shape i) : Shape i := by
  cases ok with
  | false => exact .rejects (fun s => (h s).trans (by simp [perform, done, Action.andThen, raise])) (hr.2 rfl)
  | true => exact hok rfl h (by simp [hr])

/-- Every instruction has one of the five shapes, with the conditions, addresses and registers that the
spec's tables give it. -/
theorem exec_shape (i : Instr) : Shape i := by
  cases i with
  | decodeBcd b => exact .answers _ (fun _ => rfl) id rfl
  | encodeBcd d => exact .answers _ (fun _ => rfl) id rfl
  | decodeHours b => exact .answers _ (fun _ => rfl) id rfl
  | encodeHours hour =>
    cases hv : hourValid hour with
    | false =>
      exact .rejects (fun s => by
        simp [exec, execEncodeHours, hoursEncode, hv, perform, Action.andThen, raise])
        (by simp [Instr.rejected, ← hourValid_iff, hv])
    | true =>
      exact .answers (.u8 (hourByte hour)) (fun s => by
        simp [exec, execEncodeHours, hoursEncode, hv, perform, Action.andThen, ret])
        (by simp [Instr.rejected, ← hourValid_iff, hv]) rfl
  | getSeconds => exact shape_of_query .seconds _ (fun _ => rfl) id rfl
  | getMinutes => exact shape_of_query .minutes _ (fun _ => rfl) id rfl
  | getHours => exact shape_of_query .hours _ (fun _ => rfl) id rfl
  | getWeekday => exact shape_of_query .weekday _ (fun _ => rfl) id rfl
  | getDay => exact shape_of_query .day _ (fun _ => rfl) id rfl
  | getMonth => exact shape_of_query .month _ (fun _ => rfl) id rfl
  | getYear => exact shape_of_query .year _ (fun _ => rfl) id rfl
  | getDatetime =>
    refine .reads dateTimeSpan
      (fun p bs => require (calSane p.calSane (dtDecode bs)) (ret (.dateTime (dtDecode bs))))
      (fun _ => rfl) (fun p bs => ?_) id rfl (.inr (.inl ⟨rfl, rfl⟩))
    cases calSane p.calSane (dtDecode bs) with
    | false => exact .inr ⟨rfl, rfl⟩
    | true => exact .inl ⟨_, rfl⟩
  | setSeconds v =>
    refine shape_of_setter (fun _ => rfl) (by simp [Instr.rejected, sixtyOk]) fun hv h hr => ?_
    exact shape_of_regUpdate .seconds (fun _ => true) (fun r => secondsByte r v) (by simpa using h) hr
      rfl rfl fun r => secondsByte_keeps r v (by simpa [sixtyOk] using hv)
  | setMinutes v =>
    exact shape_of_setter (fun _ => rfl) (by simp [Instr.rejected, sixtyOk]) fun _ h hr =>
      shape_of_regWrite .minutes _ h hr rfl rfl rfl
  | setHours hour =>
    cases hv : hourValid hour with
    | false =>
      exact .rejects (fun s => by
        simp [exec, execSetHours, hoursEncode, hv, perform, done, Action.andThen, raise])
        (by simp [Instr.rejected, ← hourValid_iff, hv])
    | true =>
      exact shape_of_regWrite .hours (hourByte hour) (fun s => by
        simp [exec, execSetHours, hoursEncode, hv])
        (by simp [Instr.rejected, ← hourValid_iff, hv]) rfl rfl rfl
  | setWeekday v =>
    exact shape_of_setter (fun _ => rfl) (by simp [Instr.rejected, weekdayOk]; omega) fun _ h hr =>
      shape_of_regWrite .weekday _ h hr rfl rfl rfl
  | setDay v =>
    exact shape_of_setter (fun _ => rfl) (by simp [Instr.rejected, dayOk]; omega) fun _ h hr =>
      shape_of_regWrite .day _ h hr rfl rfl rfl
  | setMonth v =>
    exact shape_of_setter (fun _ => rfl) (by simp [Instr.rejected, monthOk]; omega) fun _ h hr =>
      shape_of_regWrite .month _ h hr rfl rfl rfl
  | setYear v =>
    exact shape_of_setter (fun _ => rfl) (by simp [Instr.rejected, yearOk]; omega) fun _ h hr =>
      shape_of_regWrite .year _ h hr rfl rfl rfl
  | setDatetime dt =>
    refine shape_of_setter (fun _ => rfl) (by simp [Instr.rejected, ← dtRangesOk_iff_inRanges])
      fun hv h hr => ?_
    have hs : dt.second.toNat ≤ 59 := by
      simpa [sixtyOk] using ((dtRangesOk_iff dt).mp hv).2.2.2.2.2.2
    refine .readsThenWrites .seconds (fun r0 => some (dateTimePayload r0 dt)) h hr rfl ?_ ?_ ?_
    · rintro b p ⟨⟩; exact .inr (.inl ⟨rfl, rfl⟩)
    · rintro b p ⟨⟩ x - hx
      simp only [dateTimePayload, dtPayload, List.length_cons, List.length_nil] at hx
      simp only [Instr.mayWrite]; omega
    · rintro b p ⟨⟩ x - hx
      simp only [dateTimePayload, dtPayload, List.length_cons, List.length_nil] at hx
      by_cases h0 : x = 0
      · subst h0; exact .inr ⟨rfl, secondsByte_keeps b dt.second hs⟩
      · refine .inl ?_
        simp only [Instr.ownedBits]
        rw [if_neg h0, if_pos (by omega)]
  | running => exact shape_of_query .seconds _ (fun _ => rfl) id rfl
  | setRunning =>
    exact shape_of_regUpdate .seconds (fun r => decide (r &&& maskCH ≠ 0)) (fun r => r &&& ~~~maskCH)
      (fun s => by simp [exec, execSetRunning, clearFlag]) id rfl rfl fun b => flag_clear_keeps b _
  | halt =>
    exact shape_of_regUpdate .seconds (fun r => decide (r &&& maskCH = 0)) (fun r => r ||| maskCH)
      (fun s => by simp [exec, execHalt, setFlag]) id rfl rfl fun b => flag_set_keeps b _
  | squareWaveOutputEnabled => exact shape_of_query .sqw _ (fun _ => rfl) id rfl
  | enableSquareWaveOutput =>
    exact shape_of_regUpdate .sqw (fun r => decide (r &&& maskSQWE = 0)) (fun r => r ||| maskSQWE)
      (fun s => by simp [exec, execEnableSquareWaveOutput, setFlag]) id rfl rfl fun b => flag_set_keeps b _
  | disableSquareWaveOutput =>
    exact shape_of_regUpdate .sqw (fun r => decide (r &&& maskSQWE ≠ 0)) (fun r => r &&& ~~~maskSQWE)
      (fun s => by simp [exec, execDisableSquareWaveOutput, clearFlag]) id rfl rfl fun b => flag_clear_keeps b _
  | squareWaveOutputLevel => exact shape_of_query .sqw _ (fun _ => rfl) id rfl
  | setSquareWaveOutputLevel level =>
    cases level with
    | high =>
      exact shape_of_regUpdate .sqw (fun r => decide (r &&& maskOUT = 0)) (fun r => r ||| maskOUT)
        (fun s => by simp [exec, execSetSquareWaveOutputLevel, setFlag]) id rfl rfl fun b => flag_set_keeps b _
    | low =>
      exact shape_of_regUpdate .sqw (fun r => decide (r &&& maskOUT ≠ 0)) (fun r => r &&& ~~~maskOUT)
        (fun s => by simp [exec, execSetSquareWaveOutputLevel, clearFlag]) id rfl rfl fun b => flag_clear_keeps b _
  | squareWaveOutputRate => exact shape_of_query .sqw _ (fun _ => rfl) id rfl
  | setSquareWaveOutputRate rate =>
    exact shape_of_regUpdate .sqw (fun r => decide (r &&& maskRS ≠ rateCode rate))
      (fun r => withRate r rate)
      (fun s => by simp [exec, execSetSquareWaveOutputRate]) id rfl rfl fun b => withRate_keeps b rate
  | readRam offset n =>
    cases hc : ramCheck offset.toNat n.toNat with
    | empty h =>
      exact .answers (.bytes []) (fun s => by simp only [exec, execReadRam, hc])
        (by simp [Instr.rejected, h]) (by simp [Instr.firstRequest, h])
    | invalid h =>
      exact .rejects (fun s => by simp only [exec, execReadRam, hc]) h
    | span h =>
      refine .reads (ramSpan h) (fun _ bs => ret (.bytes bs))
        (fun s => by simp only [exec, execReadRam, hc]) (fun _ _ => .inl ⟨_, rfl⟩) ?_ ?_ ?_
      · simp only [Instr.rejected, ramLen] at h ⊢; omega
      · simp only [Instr.firstRequest]; rw [if_neg (by omega)]; rfl
      · have := h.2
        refine .inr (.inr ?_); simp only [ramSpan, ramBase, ramLen] at *; omega
  | writeRam offset d =>
    cases hc : ramCheck offset.toNat d.length with
    | empty h =>
      exact .answers .unit (fun s => by simp only [exec, execWriteRam, hc])
        (by simp [Instr.rejected, h]) (by simp [Instr.firstRequest, h])
    | invalid h =>
      exact .rejects (fun s => by simp only [exec, execWriteRam, hc]) h
    | span h =>
      refine .writes (ramPayload d h) (fun s => by simp only [exec, execWriteRam, hc]) ?_ ?_ ?_ ?_ ?_
      · simp only [Instr.rejected, ramLen] at h ⊢; omega
      · simp only [Instr.firstRequest]; rw [if_neg (by omega)]; rfl
      · have := h.2
        refine .inr (.inr ?_); simp only [ramPayload, ramBase, ramLen] at *; omega
      · intro x h1 h2
        have := h.2
        simp only [ramPayload, ramBase, ramLen, Instr.mayWrite] at *; omega
      · intro x h1 h2
        have := h.2
        simp only [ramPayload, ramBase, ramLen, Instr.ownedBits] at *
        rw [if_pos (by omega)]

/-! ## What a next state can be -/

/-- What running `i` in `s` can leave: no transaction; a first transaction never answered; one read; one
write; a read and then a transaction never answered; a read and a write. -/
inductive Ran (i : Instr) (s : State) : State → Prop where
  | quiet (r : Response) (verdict : r.failure = none)
      (rejected : i.rejected ↔ r = .error .invalidInputData) (request : i.rejected ∨ i.firstRequest = none) :
      Ran i s (s.respond r)
  | hung (admitted : ¬ i.rejected) (answer : (s.turnAt 0).answer = .never) : Ran i s s.begin.hang
  | read (addr n : Nat) (o : ReadOutcome) (r : Response) (listed : listedSpan addr n)
      (fresh : ∀ data, o = .ok data → data = (s.busMem 0).readSpan addr n)
      (verdict : r.failure = o.failure) (answer : o.failure = answerFailure (s.turnAt 0).answer)
      (admitted : ¬ i.rejected) (valid : r = .error .invalidInputData → i = .getDatetime) :
      Ran i s ((s.begin.record (rdAt s addr n o)).respond r)
  | wrote (p : Payload) (o : WriteOutcome) (m : Memory) (r : Response)
      (listed : listedSpan p.addr p.data.length)
      (owned : ∀ x, p.addr ≤ x → x < p.addr + p.data.length → i.mayWrite x)
      (outside : ∀ x, ¬ (p.addr ≤ x ∧ x < p.addr + p.data.length) → m.get x = (s.busMem 0).get x)
      (failed : o ≠ .ok → s.params.writeFailEffect = .unchanged → sameRegs (s.busMem 0) m)
      (inside : o = .ok → m = (s.busMem 0).writeSpan p.addr p.data)
      (whole : ∀ x, p.addr ≤ x → x < p.addr + p.data.length → i.ownedBits x = 0xFF)
      (wf : s.mem.wf = true → m.wf = true) (verdict : r.failure = o.failure)
      (answer : o.failure = answerFailure (s.turnAt 0).answer)
      (admitted : ¬ i.rejected) (valid : r ≠ .error .invalidInputData) :
      Ran i s (((s.begin.withMem m).record (wrAt s p.addr p.data o)).respond r)
  | readHung (addr n : Nat) (bs : List Byte) (listed : listedSpan addr n)
      (fresh : bs = (s.busMem 0).readSpan addr n) (first : (s.turnAt 0).answer = .ok)
      (answer : (s.turnAt 1).answer = .never) (admitted : ¬ i.rejected) :
      Ran i s (s.begin.record (rdAt s addr n (.ok bs))).begin.hang
  | readWrote (addr n : Nat) (bs : List Byte) (p : Payload) (o : WriteOutcome) (m : Memory)
      (r : Response) (listedRead : listedSpan addr n) (fresh : bs = (s.busMem 0).readSpan addr n)
      (listed : listedSpan p.addr p.data.length)
      (owned : ∀ x, p.addr ≤ x → x < p.addr + p.data.length → i.mayWrite x)
      (outside : ∀ x, ¬ (p.addr ≤ x ∧ x < p.addr + p.data.length) → m.get x = (s.busMem 1).get x)
      (failed : o ≠ .ok → s.params.writeFailEffect = .unchanged → sameRegs (s.busMem 1) m)
      (inside : o = .ok → m = (s.busMem 1).writeSpan p.addr p.data)
      (keeps : ∀ x, p.addr ≤ x → x < p.addr + p.data.length →
        i.ownedBits x = 0xFF ∨ (x = addr ∧
          p.data.getD (x - p.addr) 0 &&& ~~~i.ownedBits x =
            (s.busMem 0).get addr &&& ~~~i.ownedBits x))
      (wf : s.mem.wf = true → m.wf = true) (verdict : r.failure = o.failure)
      (first : (s.turnAt 0).answer = .ok)
      (answer : o.failure = answerFailure (s.turnAt 1).answer) (admitted : ¬ i.rejected)
      (valid : r ≠ .error .invalidInputData) :
      Ran i s ((((s.begin.record (rdAt s addr n (.ok bs))).begin.withMem m).record
        (wrAt s p.addr p.data o)).respond r)

theorem State.wf_busMem {s : State} (h : s.mem.wf = true) (k : Nat) : (s.busMem k).wf = true := by
  induction k with
  | zero => exact Memory.wf_tick _ _ h
  | succ k ih => exact Memory.wf_tick _ _ ih

/-- Every instruction ends in a next state, of one of the forms of `Ran` (R245, R252). -/
theorem exec_ran (i : Instr) (s : State) : ∃ t, exec i s = .next t ∧ Ran i s t := by
  cases exec_shape i with
  | answers v h ha hr =>
    exact ⟨_, (h s).trans (perform_value rfl), .quiet _ rfl (by simp [ha]) (.inr hr)⟩
  | rejects h hr => exact ⟨_, (h s).trans (perform_raised rfl), .quiet _ rfl (by simp [hr]) (.inl hr)⟩
  | reads sp k h pure hadm _ listed =>
    rw [h s]
    cases ha : (s.turnAt 0).answer with
    | ok =>
      have hr := Action.andThen_value (rest := k s.params) (memRead_ok sp ha)
      rcases pure s.params ((s.busMem 0).readSpan sp.addr sp.len) with ⟨v, hv⟩ | ⟨hv, hi⟩
      · exact ⟨_, perform_value (hr.trans (by rw [hv, ret_apply])),
          .read _ _ _ _ listed (by rintro _ ⟨⟩; rfl) rfl (by rw [ha]; rfl) hadm nofun⟩
      · exact ⟨_, perform_raised (hr.trans (by rw [hv, raise_apply])),
          .read _ _ _ _ listed (by rintro _ ⟨⟩; rfl) rfl (by rw [ha]; rfl) hadm fun _ => hi⟩
    | fail e =>
      exact ⟨_, perform_raised (Action.andThen_raised (memRead_fail sp ha)),
        .read _ _ _ _ listed nofun rfl (by rw [ha]; rfl) hadm nofun⟩
    | never => exact ⟨_, perform_hung (Action.andThen_hung (memRead_never sp ha)), .hung hadm ha⟩
  | writes p h hadm _ listed owned whole =>
    rw [h s]
    cases ha : (s.turnAt 0).answer with
    | ok =>
      exact ⟨_, perform_value (done_value (memWrite_ok p ha)),
        .wrote p .ok _ _ listed owned (fun x hx => Memory.get_writeSpan_outside _ hx)
          (fun h => absurd rfl h) (fun _ => rfl) whole
          (fun hw => Memory.wf_writeSpan p.inside (State.wf_busMem hw 0)) rfl (by rw [ha]; rfl) hadm nofun⟩
    | fail e =>
      exact ⟨_, perform_raised (done_raised (memWrite_fail p ha)),
        .wrote p (.fail e) _ _ listed owned (s.memAfterFailedWrite_spec p).1
          (fun _ => (s.memAfterFailedWrite_spec p).2) nofun whole
          (fun hw => State.wf_memAfterFailedWrite p hw) rfl (by rw [ha]; rfl) hadm nofun⟩
    | never => exact ⟨_, perform_hung (done_hung (memWrite_never p ha)), .hung hadm ha⟩
  | readsThenWrites r k h hadm _ listed owned keeps =>
    rw [h s]
    cases ha : (s.turnAt 0).answer with
    | ok =>
      have hr := Action.andThen_value
        (rest := fun b => match k b with | none => ret () | some p => memWrite p) (readReg_ok r ha)
      cases hk : k ((s.busMem 0).get r.addr) with
      | none =>
        exact ⟨_, perform_value (done_value (hr.trans (by simp only [hk, ret_apply]))),
          .read r.addr 1 (.ok [(s.busMem 0).get r.addr]) _ (listedSpan_reg r) (by rintro _ ⟨⟩; rfl)
            rfl (by rw [ha]; rfl) hadm nofun⟩
      | some p =>
        simp only [hk] at hr
        have hl := listed _ _ hk
        have ho := owned _ _ hk
        have hkp := keeps _ _ hk
        let s1 := s.begin.record (rdAt s r.addr 1 (.ok [(s.busMem 0).get r.addr]))
        have hm : s1.busMem 0 = s.busMem 1 := by simp [s1]
        have hw1 : s.mem.wf = true → s1.mem.wf = true := fun hw => State.wf_busMem hw 0
        cases hb : (s.turnAt 1).answer with
        | ok =>
          have hw := memWrite_ok (s := s1) p (by simpa [s1] using hb)
          rw [hm] at hw
          exact ⟨_, perform_value (done_value (hr.trans hw)),
            .readWrote _ _ _ p .ok _ _ (listedSpan_reg r) rfl hl ho
              (fun x hx => Memory.get_writeSpan_outside _ hx) (fun h => absurd rfl h) (fun _ => rfl) hkp
              (fun hw => Memory.wf_writeSpan p.inside (State.wf_busMem hw 1)) rfl ha (by rw [hb]; rfl) hadm nofun⟩
        | fail e =>
          have hw := memWrite_fail (s := s1) p (by simpa [s1] using hb)
          have hs := s1.memAfterFailedWrite_spec p
          rw [hm] at hs
          exact ⟨_, perform_raised (done_raised (hr.trans hw)),
            .readWrote _ _ _ p (.fail e) _ _ (listedSpan_reg r) rfl hl ho hs.1 (fun _ => hs.2) nofun hkp
              (fun hw => State.wf_memAfterFailedWrite p (hw1 hw)) rfl ha (by rw [hb]; rfl) hadm nofun⟩
        | never =>
          have hw := memWrite_never (s := s1) p (by simpa [s1] using hb)
          exact ⟨_, perform_hung (done_hung (hr.trans hw)), .readHung _ _ _ (listedSpan_reg r) rfl ha hb hadm⟩
    | fail e =>
      exact ⟨_, perform_raised (done_raised (Action.andThen_raised (readReg_fail r ha))),
        .read _ _ _ _ (listedSpan_reg r) nofun rfl (by rw [ha]; rfl) hadm nofun⟩
    | never =>
      exact ⟨_, perform_hung (done_hung (Action.andThen_hung (readReg_never r ha))), .hung hadm ha⟩

/-- What a next state of `exec` can be. -/
theorem ran_of_exec {i : Instr} {s t : State} (h : exec i s = .next t) : Ran i s t := by
  obtain ⟨t', h', hr⟩ := exec_ran i s
  rw [h] at h'
  cases h'
  exact hr

end Sys2Proof.Machine
end

