-- ==== Sys2Proof/Laws/PerInstr.lean ====
section
/-! SUPPORT. The family FrameLength: the encoder gives every instruction a frame of the length that its
format has (R91). One lemma per constructor. -/

namespace Sys2Proof.Laws.FrameLength

/-- The frame of a well-formed instruction is as long as its format says, and no longer than the
longest frame (R91). -/
def Statement (i : Instr) : Prop :=
  i.wellFormed = true → (encode i).length = frameLength i ∧ frameLength i ≤ maxFrameLength

theorem decodeBcd (b : Byte) : Statement (.decodeBcd b) :=
  fun _ => ⟨rfl, by simp [frameLength, maxFrameLength]⟩

theorem encodeBcd (d : Byte) : Statement (.encodeBcd d) :=
  fun _ => ⟨rfl, by simp [frameLength, maxFrameLength]⟩

theorem decodeHours (b : Byte) : Statement (.decodeHours b) :=
  fun _ => ⟨rfl, by simp [frameLength, maxFrameLength]⟩

theorem encodeHours (hour : Hour) : Statement (.encodeHours hour) :=
  fun _ => ⟨rfl, by simp [frameLength, maxFrameLength]⟩

theorem getSeconds : Statement .getSeconds :=
  fun _ => ⟨rfl, by simp [frameLength, maxFrameLength]⟩

theorem getMinutes : Statement .getMinutes :=
  fun _ => ⟨rfl, by simp [frameLength, maxFrameLength]⟩

theorem getHours : Statement .getHours :=
  fun _ => ⟨rfl, by simp [frameLength, maxFrameLength]⟩

theorem getWeekday : Statement .getWeekday :=
  fun _ => ⟨rfl, by simp [frameLength, maxFrameLength]⟩

theorem getDay : Statement .getDay :=
  fun _ => ⟨rfl, by simp [frameLength, maxFrameLength]⟩

theorem getMonth : Statement .getMonth :=
  fun _ => ⟨rfl, by simp [frameLength, maxFrameLength]⟩

theorem getYear : Statement .getYear :=
  fun _ => ⟨rfl, by simp [frameLength, maxFrameLength]⟩

theorem getDatetime : Statement .getDatetime :=
  fun _ => ⟨rfl, by simp [frameLength, maxFrameLength]⟩

theorem setSeconds (v : Byte) : Statement (.setSeconds v) :=
  fun _ => ⟨rfl, by simp [frameLength, maxFrameLength]⟩

theorem setMinutes (v : Byte) : Statement (.setMinutes v) :=
  fun _ => ⟨rfl, by simp [frameLength, maxFrameLength]⟩

theorem setHours (hour : Hour) : Statement (.setHours hour) :=
  fun _ => ⟨rfl, by simp [frameLength, maxFrameLength]⟩

theorem setWeekday (v : Byte) : Statement (.setWeekday v) :=
  fun _ => ⟨rfl, by simp [frameLength, maxFrameLength]⟩

theorem setDay (v : Byte) : Statement (.setDay v) :=
  fun _ => ⟨rfl, by simp [frameLength, maxFrameLength]⟩

theorem setMonth (v : Byte) : Statement (.setMonth v) :=
  fun _ => ⟨rfl, by simp [frameLength, maxFrameLength]⟩

theorem setYear (v : Half) : Statement (.setYear v) :=
  fun _ => ⟨rfl, by simp [frameLength, maxFrameLength]⟩

theorem setDatetime (dt : DateTime) : Statement (.setDatetime dt) :=
  fun _ => ⟨rfl, by simp [frameLength, maxFrameLength]⟩

theorem running : Statement .running :=
  fun _ => ⟨rfl, by simp [frameLength, maxFrameLength]⟩

theorem setRunning : Statement .setRunning :=
  fun _ => ⟨rfl, by simp [frameLength, maxFrameLength]⟩

theorem halt : Statement .halt :=
  fun _ => ⟨rfl, by simp [frameLength, maxFrameLength]⟩

theorem squareWaveOutputEnabled : Statement .squareWaveOutputEnabled :=
  fun _ => ⟨rfl, by simp [frameLength, maxFrameLength]⟩

theorem enableSquareWaveOutput : Statement .enableSquareWaveOutput :=
  fun _ => ⟨rfl, by simp [frameLength, maxFrameLength]⟩

theorem disableSquareWaveOutput : Statement .disableSquareWaveOutput :=
  fun _ => ⟨rfl, by simp [frameLength, maxFrameLength]⟩

theorem squareWaveOutputLevel : Statement .squareWaveOutputLevel :=
  fun _ => ⟨rfl, by simp [frameLength, maxFrameLength]⟩

theorem setSquareWaveOutputLevel (level : Level) : Statement (.setSquareWaveOutputLevel level) :=
  fun _ => ⟨rfl, by simp [frameLength, maxFrameLength]⟩

theorem squareWaveOutputRate : Statement .squareWaveOutputRate :=
  fun _ => ⟨rfl, by simp [frameLength, maxFrameLength]⟩

theorem setSquareWaveOutputRate (rate : Rate) : Statement (.setSquareWaveOutputRate rate) :=
  fun _ => ⟨rfl, by simp [frameLength, maxFrameLength]⟩

theorem readRam (offset : Byte) (n : Byte) : Statement (.readRam offset n) :=
  fun _ => ⟨rfl, by simp [frameLength, maxFrameLength]⟩

theorem writeRam (offset : Byte) (d : List Byte) : Statement (.writeRam offset d) := by
  intro h
  simp only [Instr.wellFormed, decide_eq_true_eq] at h
  simp only [encode, frameLength, maxFrameLength, List.length_cons]
  omega

end Sys2Proof.Laws.FrameLength
end

