-- ==== Sys2Proof/Tests/Slice0.lean ====
section
/-! SUPPORT. Tests: the well-formedness check, the decoding of every constructor from a frame written out
byte by byte (R82 to R89), one step at a time against the vectors of spec/95_test_vectors.md, and for every
statement with hypotheses a state and operands that meet them. -/

namespace Sys2Proof.Tests

open Sys2Proof Sys2Proof.Machine

/-! ## Small states -/

/-- A turn whose transaction is answered `ok`. -/
def ok : Turn := ⟨none, .ok, []⟩

/-- A turn whose transaction fails. -/
def failing : Turn := ⟨none, .fail ⟨7⟩, [0x11, 0x22]⟩

/-- A turn whose transaction is never answered. -/
def unanswered : Turn := ⟨none, .never, []⟩

/-- A turn before which the free timekeeper rolls 59 s over into minute 8 (P5). -/
def rollover : Turn := ⟨some ⟨0x00, 0x08, 0x23, 0x02, 0x13, 0x08, 0x18⟩, .ok, []⟩

/-- An idle machine under a frozen timekeeper with some registers, some coming turns and a frame presented;
the device address is any. -/
def machine (mem : Memory) (turns : List Turn) (bytes : List Byte) : State where
  params := ⟨0x2A, .frozen, .unchanged, .gregorian⟩
  mem := mem
  input := bytes
  port := .idle
  output := []
  trace := []
  turns := turns
  draws := 0

/-- The same machine under a free timekeeper, with havoc and the weakest calendar check. -/
def machineFree (mem : Memory) (turns : List Turn) (bytes : List Byte) : State where
  params := ⟨0x2A, .free, .havocAddressed, .range⟩
  mem := mem
  input := bytes
  port := .idle
  output := []
  trace := []
  turns := turns
  draws := 0

/-- What one step does: the response frames, the bus events and the register space. -/
def seen (s : State) : Option (List (List Byte) × List BusEvent × Memory) :=
  match step s with
  | .next t => some (t.output.map Response.frame, t.trace, t.mem)
  | .fault _ => none
  | .refused _ => none

/-- What one step answers to a frame when every transaction is answered `ok`. -/
def answer (bytes : List Byte) (mem : Memory) : Option (List (List Byte) × List BusEvent × Memory) :=
  seen (machine mem [ok, ok] bytes)

/-- `RD [a] n -> [bytes]`. -/
def rd (a : Byte) (n : Nat) (bytes : List Byte) : BusEvent := .rd 0x2A [a] n (.ok bytes)

/-- `WR [a, b...]`. -/
def wr (bytes : List Byte) : BusEvent := .wr 0x2A bytes .ok

/-- Why a step is refused. -/
def refusal (bytes : List Byte) : Option DecodeError :=
  match step (machine [] [] bytes) with
  | .refused (.reservedEncoding e) => some e
  | .refused (.notModelled _) => none
  | .next _ => none
  | .fault _ => none

/-! ## Well-formedness -/

theorem test_wellFormed_refuses_long_buffer :
    (Instr.writeRam 0 (List.replicate 256 0)).wellFormed = false := by
  simp only [Instr.wellFormed, List.length_replicate]; decide

theorem test_wellFormed_accepts_longest_buffer :
    (Instr.writeRam 0 (List.replicate 255 0)).wellFormed = true := by
  simp only [Instr.wellFormed, List.length_replicate]; decide

/-! ## Every constructor, decoded from a frame written out from R82 to R89 -/

theorem test_decode_decodeBcd : decodeFrame [0x00, 0x59] = .ok (.decodeBcd 0x59, []) := by decide
theorem test_decode_encodeBcd : decodeFrame [0x01, 0x3A] = .ok (.encodeBcd 58, []) := by decide
theorem test_decode_decodeHours : decodeFrame [0x02, 0xA3] = .ok (.decodeHours 0xA3, []) := by decide
theorem test_decode_encodeHours_h24 :
    decodeFrame [0x03, 0x00, 0x17] =
      .ok (.encodeHours (.h24 23), []) := by decide
theorem test_decode_encodeHours_am :
    decodeFrame [0x03, 0x01, 0x01] =
      .ok (.encodeHours (.am 1), []) := by decide
theorem test_decode_encodeHours_pm :
    decodeFrame [0x03, 0x02, 0x0C] =
      .ok (.encodeHours (.pm 12), []) := by decide
theorem test_decode_getSeconds : decodeFrame [0x10] = .ok (.getSeconds, []) := by decide
theorem test_decode_getMinutes : decodeFrame [0x11] = .ok (.getMinutes, []) := by decide
theorem test_decode_getHours : decodeFrame [0x12] = .ok (.getHours, []) := by decide
theorem test_decode_getWeekday : decodeFrame [0x13] = .ok (.getWeekday, []) := by decide
theorem test_decode_getDay : decodeFrame [0x14] = .ok (.getDay, []) := by decide
theorem test_decode_getMonth : decodeFrame [0x15] = .ok (.getMonth, []) := by decide
theorem test_decode_getYear : decodeFrame [0x16] = .ok (.getYear, []) := by decide
theorem test_decode_getDatetime : decodeFrame [0x17] = .ok (.getDatetime, []) := by decide
theorem test_decode_setSeconds : decodeFrame [0x20, 0x3A] = .ok (.setSeconds 58, []) := by decide
theorem test_decode_setMinutes : decodeFrame [0x21, 0x3B] = .ok (.setMinutes 59, []) := by decide
theorem test_decode_setHours :
    decodeFrame [0x22, 0x02, 0x0B] =
      .ok (.setHours (.pm 11), []) := by decide
theorem test_decode_setWeekday : decodeFrame [0x23, 0x07] = .ok (.setWeekday 7, []) := by decide
theorem test_decode_setDay : decodeFrame [0x24, 0x1F] = .ok (.setDay 31, []) := by decide
theorem test_decode_setMonth : decodeFrame [0x25, 0x0C] = .ok (.setMonth 12, []) := by decide
theorem test_decode_setYear : decodeFrame [0x26, 0x33, 0x08] = .ok (.setYear 2099, []) := by decide
theorem test_decode_setDatetime :
    decodeFrame [0x27, 0xE8, 0x07, 0x02, 0x1D, 0x04, 0x02, 0x0C, 0x00, 0x07] =
      .ok (.setDatetime ⟨2024, 2, 29, 4, .pm 12, 0, 7⟩, []) := by decide
theorem test_decode_running : decodeFrame [0x30] = .ok (.running, []) := by decide
theorem test_decode_setRunning : decodeFrame [0x31] = .ok (.setRunning, []) := by decide
theorem test_decode_halt : decodeFrame [0x32] = .ok (.halt, []) := by decide
theorem test_decode_squareWaveOutputEnabled :
    decodeFrame [0x40] =
      .ok (.squareWaveOutputEnabled, []) := by decide
theorem test_decode_enableSquareWaveOutput :
    decodeFrame [0x41] =
      .ok (.enableSquareWaveOutput, []) := by decide
theorem test_decode_disableSquareWaveOutput :
    decodeFrame [0x42] =
      .ok (.disableSquareWaveOutput, []) := by decide
theorem test_decode_squareWaveOutputLevel :
    decodeFrame [0x43] =
      .ok (.squareWaveOutputLevel, []) := by decide
theorem test_decode_setSquareWaveOutputLevel :
    decodeFrame [0x44, 0x01] =
      .ok (.setSquareWaveOutputLevel .high, []) := by decide
theorem test_decode_squareWaveOutputRate :
    decodeFrame [0x45] =
      .ok (.squareWaveOutputRate, []) := by decide
theorem test_decode_setSquareWaveOutputRate :
    decodeFrame [0x46, 0x02] =
      .ok (.setSquareWaveOutputRate .hz8192, []) := by decide
theorem test_decode_readRam : decodeFrame [0x50, 0x36, 0x02] = .ok (.readRam 54 2, []) := by decide
theorem test_decode_writeRam :
    decodeFrame [0x51, 0x36, 0x02, 0xAA, 0xBB] =
      .ok (.writeRam 54 [0xAA, 0xBB], []) := by decide

/-- A frame longer than its format is the frame and the start of the next (R90). -/
theorem test_decode_leaves_the_rest :
    decodeFrame [0x51, 0x00, 0x01, 0x11, 0x10] = .ok (.writeRam 0 [0x11], [0x10]) := by decide

set_option maxRecDepth 4000 in
/-- The table's bit numbering: byte 0 in bits 7:0, byte 1 in bits 15:8 (set_year 2099, frame 26 33 08). -/
theorem test_decodeTableWord_setYear : decodeTableWord 24 0x083326 = some (.setYear 2099) := by decide

set_option maxRecDepth 4000 in
/-- Operand bytes that the table gives no bits are zeros. -/
theorem test_decodeTableWord_writeRam :
    decodeTableWord 24 0x020051 = some (.writeRam 0 [0x00, 0x00]) := by decide

set_option maxRecDepth 4000 in
/-- The presented word is what the next step runs. -/
theorem test_withFetchWord_runs :
    step (State.reset.withFetchWord 8 0x10) =
      exec .getSeconds (State.reset.present (List.replicate 257 0)) := rfl

/-! ## Reserved encodings (V8) -/

theorem test_refused_opcode : refusal [0x47] = some (.reservedOpcode 0x47) := by decide
theorem test_refused_hour_tag : refusal [0x22, 0xFF, 0x01] = some (.reservedHourTag 0xFF) := by decide
theorem test_refused_datetime_hour_tag :
    refusal [0x27, 0xE8, 0x07, 0x01, 0x01, 0x01, 0x03, 0x00, 0x00, 0x00] =
      some (.reservedHourTag 0x03) := by decide
theorem test_refused_level_code : refusal [0x44, 0x02] = some (.reservedLevelCode 0x02) := by decide
theorem test_refused_rate_code : refusal [0x46, 0x04] = some (.reservedRateCode 0x04) := by decide
theorem test_refused_short_B : refusal [0x20] = some (.shortFrame) := by decide
theorem test_refused_short_M : refusal [0x51, 0x00, 0x02, 0xAA] = some (.shortFrame) := by decide

/-! ## One step each: V1 to V7 -/

theorem test_decode_malformed : answer [0x00, 0xFF] [] =
    some ([[0x00, 0xA5]], [], []) := by decide

theorem test_decode : answer [0x00, 0x59] [] =
    some ([[0x00, 0x3B]], [], []) := by decide

theorem test_encode : answer [0x01, 0x3A] [] =
    some ([[0x00, 0x58]], [], []) := by decide

theorem test_encode_above_99 : answer [0x01, 0xFF] [] =
    some ([[0x00, 0x95]], [], []) := by decide

theorem test_decode_hours_bit7 : answer [0x02, 0xA3] [] =
    some ([[0x00, 0x00, 0x17]], [], []) := by decide

theorem test_decode_hours_pm : answer [0x02, 0x7F] [] =
    some ([[0x00, 0x02, 0x19]], [], []) := by decide

theorem test_encode_hours : answer [0x03, 0x02, 0x0A] [] =
    some ([[0x00, 0x70]], [], []) := by decide

theorem test_encode_hours_rejects : answer [0x03, 0x01, 0x0D] [] =
    some ([[0x01]], [], []) := by decide

theorem test_get_seconds : answer [0x10] [(0x00, 0xD8)] =
    some ([[0x00, 0x3A]], [rd 0x00 1 [0xD8]], [(0x00, 0xD8)]) := by decide

theorem test_get_seconds_malformed : answer [0x10] [] =
    some ([[0x00, 0x55]], [rd 0x00 1 [0xFF]], []) := by decide

theorem test_get_minutes : answer [0x11] [(0x01, 0xD9)] =
    some ([[0x00, 0x8B]], [rd 0x01 1 [0xD9]], [(0x01, 0xD9)]) := by decide

theorem test_get_hours : answer [0x12] [(0x02, 0x71)] =
    some ([[0x00, 0x02, 0x0B]], [rd 0x02 1 [0x71]], [(0x02, 0x71)]) := by decide

theorem test_get_weekday : answer [0x13] [(0x03, 0x12)] =
    some ([[0x00, 0x12]], [rd 0x03 1 [0x12]], [(0x03, 0x12)]) := by decide

theorem test_get_day : answer [0x14] [(0x04, 0x32)] =
    some ([[0x00, 0x20]], [rd 0x04 1 [0x32]], [(0x04, 0x32)]) := by decide

theorem test_get_month : answer [0x15] [(0x05, 0x12)] =
    some ([[0x00, 0x0C]], [rd 0x05 1 [0x12]], [(0x05, 0x12)]) := by decide

theorem test_get_year : answer [0x16] [(0x06, 0x18)] =
    some ([[0x00, 0xE2, 0x07]], [rd 0x06 1 [0x18]], [(0x06, 0x18)]) := by decide

theorem test_get_year_malformed : answer [0x16] [] =
    some ([[0x00, 0x75, 0x08]], [rd 0x06 1 [0xFF]], []) := by decide

theorem test_set_seconds : answer [0x20, 0x3A] [(0x00, 0x80), (0x07, 0x03)] =
    some ([[0x00]], [rd 0x00 1 [0x80], wr [0x00, 0xD8]], [(0x00, 0xD8), (0x07, 0x03)]) := by decide

theorem test_set_seconds_rejects : answer [0x20, 0x3C] [(0x00, 0x80)] =
    some ([[0x01]], [], [(0x00, 0x80)]) := by decide

theorem test_set_minutes : answer [0x21, 0x3B] [(0x01, 0x80)] =
    some ([[0x00]], [wr [0x01, 0x59]], [(0x01, 0x59)]) := by decide

theorem test_set_minutes_rejects : answer [0x21, 0x3C] [] =
    some ([[0x01]], [], []) := by decide

theorem test_set_hours : answer [0x22, 0x02, 0x0B] [(0x02, 0x23)] =
    some ([[0x00]], [wr [0x02, 0x71]], [(0x02, 0x71)]) := by decide

theorem test_set_hours_rejects : answer [0x22, 0x01, 0x00] [(0x02, 0x23)] =
    some ([[0x01]], [], [(0x02, 0x23)]) := by decide

theorem test_set_weekday : answer [0x23, 0x07] [] =
    some ([[0x00]], [wr [0x03, 0x07]], [(0x03, 0x07)]) := by decide

theorem test_set_weekday_rejects : answer [0x23, 0x08] [] =
    some ([[0x01]], [], []) := by decide

theorem test_set_day : answer [0x24, 0x1F] [(0x05, 0x02)] =
    some ([[0x00]], [wr [0x04, 0x31]], [(0x04, 0x31), (0x05, 0x02)]) := by decide

theorem test_set_day_rejects : answer [0x24, 0x00] [] =
    some ([[0x01]], [], []) := by decide

theorem test_set_month : answer [0x25, 0x0A] [] =
    some ([[0x00]], [wr [0x05, 0x10]], [(0x05, 0x10)]) := by decide

theorem test_set_month_rejects : answer [0x25, 0x0D] [] =
    some ([[0x01]], [], []) := by decide

theorem test_set_year : answer [0x26, 0x33, 0x08] [] =
    some ([[0x00]], [wr [0x06, 0x99]], [(0x06, 0x99)]) := by decide

theorem test_set_year_rejects : answer [0x26, 0x12, 0x00] [] =
    some ([[0x01]], [], []) := by decide

theorem test_get_datetime :
    answer [0x17] [(0x00, 0xD8), (0x01, 0x59), (0x02, 0x23), (0x03, 0x02), (0x04, 0x13), (0x05, 0x08),
        (0x06, 0x18)] =
      some ([[0x00, 0xE2, 0x07, 0x08, 0x0D, 0x02, 0x00, 0x17, 0x3B, 0x3A]],
        [rd 0x00 7 [0xD8, 0x59, 0x23, 0x02, 0x13, 0x08, 0x18]],
        [(0x00, 0xD8), (0x01, 0x59), (0x02, 0x23), (0x03, 0x02), (0x04, 0x13), (0x05, 0x08),
          (0x06, 0x18)]) := by decide

/-- 29 February 2023 under CAL_SANE_GREGORIAN. -/
theorem test_get_datetime_rejects :
    answer [0x17] [(0x00, 0x00), (0x01, 0x00), (0x02, 0x00), (0x03, 0x01), (0x04, 0x29), (0x05, 0x02),
        (0x06, 0x23)] =
      some ([[0x01]], [rd 0x00 7 [0x00, 0x00, 0x00, 0x01, 0x29, 0x02, 0x23]],
        [(0x00, 0x00), (0x01, 0x00), (0x02, 0x00), (0x03, 0x01), (0x04, 0x29), (0x05, 0x02),
          (0x06, 0x23)]) := by decide

theorem test_set_datetime :
    answer [0x27, 0x33, 0x08, 0x0C, 0x1F, 0x07, 0x00, 0x17, 0x3B, 0x3A] [(0x00, 0xD8)] =
      some ([[0x00]], [rd 0x00 1 [0xD8], wr [0x00, 0xD8, 0x59, 0x23, 0x07, 0x31, 0x12, 0x99]],
        [(0x00, 0xD8), (0x01, 0x59), (0x02, 0x23), (0x03, 0x07), (0x04, 0x31), (0x05, 0x12),
          (0x06, 0x99)]) := by decide

theorem test_set_datetime_rejects :
    answer [0x27, 0xE8, 0x07, 0x01, 0x01, 0x01, 0x01, 0x00, 0x00, 0x00] [(0x00, 0xD8)] =
      some ([[0x01]], [], [(0x00, 0xD8)]) := by decide

theorem test_running : answer [0x30] [(0x00, 0x58)] =
    some ([[0x00, 0x01]], [rd 0x00 1 [0x58]], [(0x00, 0x58)]) := by decide

theorem test_running_halted : answer [0x30] [(0x00, 0xD8)] =
    some ([[0x00, 0x00]], [rd 0x00 1 [0xD8]], [(0x00, 0xD8)]) := by decide

theorem test_set_running : answer [0x31] [(0x00, 0xD8)] =
    some ([[0x00]], [rd 0x00 1 [0xD8], wr [0x00, 0x58]], [(0x00, 0x58)]) := by decide

theorem test_set_running_noop : answer [0x31] [(0x00, 0x58)] =
    some ([[0x00]], [rd 0x00 1 [0x58]], [(0x00, 0x58)]) := by decide

theorem test_halt : answer [0x32] [(0x00, 0x00)] =
    some ([[0x00]], [rd 0x00 1 [0x00], wr [0x00, 0x80]], [(0x00, 0x80)]) := by decide

/-- P5: the write stores the seconds that were read, although the clock rolled over meanwhile. -/
theorem test_halt_free_timekeeper :
    seen (machineFree [(0x00, 0x59), (0x01, 0x07)] [ok, rollover] [0x32]) =
      some ([[0x00]], [rd 0x00 1 [0x59], wr [0x00, 0xD9]],
        [(0x00, 0xD9), (0x01, 0x08), (0x02, 0x23), (0x03, 0x02), (0x04, 0x13), (0x05, 0x08),
          (0x06, 0x18)]) := by decide

theorem test_square_wave_output_enabled : answer [0x40] [(0x07, 0xEF)] =
    some ([[0x00, 0x00]], [rd 0x07 1 [0xEF]], [(0x07, 0xEF)]) := by decide

theorem test_enable_square_wave_output : answer [0x41] [(0x07, 0x6C)] =
    some ([[0x00]], [rd 0x07 1 [0x6C], wr [0x07, 0x7C]], [(0x07, 0x7C)]) := by decide

theorem test_enable_square_wave_output_noop : answer [0x41] [(0x07, 0x93)] =
    some ([[0x00]], [rd 0x07 1 [0x93]], [(0x07, 0x93)]) := by decide

theorem test_disable_square_wave_output : answer [0x42] [(0x07, 0x93)] =
    some ([[0x00]], [rd 0x07 1 [0x93], wr [0x07, 0x83]], [(0x07, 0x83)]) := by decide

theorem test_square_wave_output_level : answer [0x43] [(0x07, 0x7F)] =
    some ([[0x00, 0x00]], [rd 0x07 1 [0x7F]], [(0x07, 0x7F)]) := by decide

theorem test_square_wave_output_level_high : answer [0x43] [(0x07, 0x90)] =
    some ([[0x00, 0x01]], [rd 0x07 1 [0x90]], [(0x07, 0x90)]) := by decide

theorem test_set_square_wave_output_level_high : answer [0x44, 0x01] [(0x07, 0x11)] =
    some ([[0x00]], [rd 0x07 1 [0x11], wr [0x07, 0x91]], [(0x07, 0x91)]) := by decide

theorem test_set_square_wave_output_level_low : answer [0x44, 0x00] [(0x07, 0x91)] =
    some ([[0x00]], [rd 0x07 1 [0x91], wr [0x07, 0x11]], [(0x07, 0x11)]) := by decide

theorem test_square_wave_output_rate : answer [0x45] [(0x07, 0x02)] =
    some ([[0x00, 0x02]], [rd 0x07 1 [0x02]], [(0x07, 0x02)]) := by decide

theorem test_set_square_wave_output_rate : answer [0x46, 0x03] [(0x07, 0x90)] =
    some ([[0x00]], [rd 0x07 1 [0x90], wr [0x07, 0x93]], [(0x07, 0x93)]) := by decide

theorem test_set_square_wave_output_rate_noop : answer [0x46, 0x02] [(0x07, 0x02)] =
    some ([[0x00]], [rd 0x07 1 [0x02]], [(0x07, 0x02)]) := by decide

theorem test_read_ram : answer [0x50, 0x36, 0x02] [(0x3E, 0xAA), (0x3F, 0xBB)] =
    some ([[0x00, 0xAA, 0xBB]], [rd 0x3E 2 [0xAA, 0xBB]], [(0x3E, 0xAA), (0x3F, 0xBB)]) := by decide

theorem test_read_ram_no_wrap : answer [0x50, 0xFF, 0x02] [] =
    some ([[0x01]], [], []) := by decide

theorem test_write_ram : answer [0x51, 0x36, 0x02, 0xAA, 0xBB] [(0x3F, 0x00)] =
    some ([[0x00]], [wr [0x3E, 0xAA, 0xBB]], [(0x3E, 0xAA), (0x3F, 0xBB)]) := by decide

theorem test_write_ram_rejects_whole : answer [0x51, 0x37, 0x02, 0x01, 0x02] [(0x3F, 0xBB)] =
    some ([[0x01]], [], [(0x3F, 0xBB)]) := by decide

/-- P4 step 7: a failed write under `havoc_addressed` leaves what the environment says. -/
theorem test_failed_write_havoc :
    (match step (machineFree [(0x00, 0x85), (0x02, 0x71)] [ok, failing] [0x31]) with
      | .next t => some (t.output, t.mem)
      | .fault _ => none
      | .refused _ => none) =
      some ([.error (.transport { code := 7 })], [(0x00, 0x11), (0x02, 0x71)]) := by decide

/-- P4 step 7 under `unchanged`. -/
theorem test_failed_write_unchanged :
    (match step (machine [(0x00, 0x85), (0x02, 0x71)] [ok, failing] [0x31]) with
      | .next t => some (t.output, t.trace.length, t.mem)
      | .fault _ => none
      | .refused _ => none) =
      some ([.error (.transport { code := 7 })], 2, [(0x00, 0x85), (0x02, 0x71)]) := by decide

/-! ## Text form (R94) -/

theorem test_assemble_program :
    assemble ["# set the clock".toList, "set_hours PM(11)  # 12-hour".toList,
      "write_ram 54, [0xAA, 0b1011_1011]".toList] =
      some [0x22, 0x02, 0x0B, 0x51, 0x36, 0x02, 0xAA, 0xBB] := by decide

theorem test_assemble_refuses : assembleLine "encode 256".toList = none := by decide

/-! ## Witnesses

For each statement with hypotheses, a state and operands that meet them, clause by clause, at a boundary
value where the clause has a range. -/

/-- The register file of S7, well formed, with the square-wave register and two RAM bytes. -/
def file : Memory :=
  [(0x00, 0xD8), (0x01, 0x59), (0x02, 0x23), (0x03, 0x02), (0x04, 0x13), (0x05, 0x08), (0x06, 0x18),
    (0x07, 0x90), (0x3E, 0xAA), (0x3F, 0xBB)]

/-- All coming transactions answered `ok`. -/
def sOk : State := machine file [ok, ok, ok] []

/-- The next transaction fails. -/
def sFail : State := machine file [failing, ok] []

/-- The next transaction succeeds and the one after it fails. -/
def sOkFail : State := machine file [ok, failing] []

/-- The next transaction is never answered. -/
def sNever : State := machine file [unanswered] []

/-- The next transaction succeeds and the one after it is never answered. -/
def sOkNever : State := machine file [ok, unanswered] []

/-- Under a free timekeeper that rolls over between the first two transactions. -/
def sFree : State := machineFree file [ok, rollover, ok] []

/-- The date-time of S7. -/
def s7 : DateTime := ⟨2018, 8, 13, 2, .h24 23, 59, 58⟩

/-- The upper boundary of every field, 12-hour form. -/
def latest : DateTime := ⟨2099, 12, 31, 7, .pm 12, 59, 59⟩

/-- The lower boundary of every field, 12-hour form. -/
def earliest : DateTime := ⟨2000, 1, 1, 1, .am 1, 0, 0⟩

/-- 30 February: in range, no date. -/
def feb30 : DateTime := ⟨2024, 2, 30, 4, .h24 0, 0, 0⟩

/-- The answers of the environment that the clauses of `Queries`, `ReadsOnly`, `WritesOnly` and
`ReadsThenWrites` ask for. -/
theorem witness_answers :
    (sOk.turnAt 0).answer = .ok ∧ (sOk.turnAt 1).answer = .ok ∧
      (sFail.turnAt 0).answer = .fail ⟨7⟩ ∧ (sOkFail.turnAt 0).answer = .ok ∧
      (sOkFail.turnAt 1).answer = .fail ⟨7⟩ := by decide

theorem witness_CodecRoundTrips :
    (99 : Byte).toNat ≤ 99 ∧ ((0x99 : Byte).toNat / 16 ≤ 9 ∧ (0x99 : Byte).toNat % 16 ≤ 9) ∧
      ((79 : Byte).toNat ≤ 79 ∧ Answers (.encodeBcd 79) (.u8 0x79)) :=
  ⟨by decide, by decide, by decide, answers_of fun _ => rfl⟩

theorem witness_EncodeHoursChecksAndEncodes :
    validHour (.h24 23) ∧ validHour (.am 1) ∧ validHour (.pm 12) ∧ ¬ validHour (.h24 24) ∧
      ¬ validHour (.am 0) ∧ ¬ validHour (.pm 13) := by
  simp [validHour]

theorem witness_HoursRoundTrip :
    validHour (.h24 0) ∧ validHour (.am 12) ∧ hourImage 0x23 ∧ hourImage 0x41 ∧ hourImage 0x72 ∧
      ¬ hourImage 0x40 ∧ ¬ hourImage 0x0A ∧ ¬ hourImage 0xA3 := by
  simp [validHour, hourImage]

theorem witness_GetSecondsStripsHaltBit :
    (sOk.turnAt 0).answer = .ok ∧ (sOk.busMem 0).get 0x00 = 0xD8 ∧
      (sFail.turnAt 0).answer = .fail ⟨7⟩ := by decide

theorem witness_GetMinutesDayMonthDecodeTheirRegister :
    (sOk.turnAt 0).answer = .ok ∧ (sOk.busMem 0).get 0x01 = 0x59 ∧ (sOk.busMem 0).get 0x04 = 0x13 ∧
      (sOk.busMem 0).get 0x05 = 0x08 ∧ (sFail.turnAt 0).answer = .fail ⟨7⟩ := by decide

theorem witness_GetHoursFollowsModeBit :
    (sOk.turnAt 0).answer = .ok ∧ (sOk.busMem 0).get 0x02 = 0x23 ∧
      (sFail.turnAt 0).answer = .fail ⟨7⟩ := by decide

theorem witness_GetWeekdayReturnsTheByte :
    (sOk.turnAt 0).answer = .ok ∧ (sOk.busMem 0).get 0x03 = 0x02 ∧
      (sFail.turnAt 0).answer = .fail ⟨7⟩ := by decide

theorem witness_GetYearAddsBase :
    (sOk.turnAt 0).answer = .ok ∧ (sOk.busMem 0).get 0x06 = 0x18 ∧
      (sFail.turnAt 0).answer = .fail ⟨7⟩ := by decide

theorem witness_SetSecondsKeepsHaltBit :
    (59 : Byte).toNat ≤ 59 ∧ (60 : Byte).toNat > 59 ∧
      ((sOk.turnAt 0).answer = .ok ∧ (sOk.turnAt 1).answer = .ok) ∧
      (sFail.turnAt 0).answer = .fail ⟨7⟩ ∧
      ((sOkFail.turnAt 0).answer = .ok ∧ (sOkFail.turnAt 1).answer = .fail ⟨7⟩) := by decide

theorem witness_SetMinutesWeekdayDayMonth :
    (59 : Byte).toNat ≤ 59 ∧ (60 : Byte).toNat > 59 ∧
      (1 ≤ (7 : Byte).toNat ∧ (7 : Byte).toNat ≤ 7) ∧ (8 : Byte).toNat > 7 ∧
      (1 ≤ (31 : Byte).toNat ∧ (31 : Byte).toNat ≤ 31) ∧ (32 : Byte).toNat > 31 ∧
      (1 ≤ (12 : Byte).toNat ∧ (12 : Byte).toNat ≤ 12) ∧ (13 : Byte).toNat > 12 ∧
      (0 : Byte).toNat = 0 ∧ (sOk.turnAt 0).answer = .ok ∧
      (sFail.turnAt 0).answer = .fail ⟨7⟩ := by decide

theorem witness_SetHoursWritesVariant :
    validHour (.h24 23) ∧ validHour (.am 12) ∧ validHour (.pm 1) ∧ ¬ validHour (.h24 24) ∧
      ¬ validHour (.am 13) ∧ ¬ validHour (.pm 0) := by
  simp [validHour]

theorem witness_SetYearWritesOffset :
    (2000 ≤ (2099 : Half).toNat ∧ (2099 : Half).toNat ≤ 2099) ∧ (1999 : Half).toNat < 2000 ∧
      (2100 : Half).toNat > 2099 := by decide

theorem witness_CombinedAndSingleAccessorsAgree :
    inRanges latest ∧ inRanges earliest ∧
      (if calSane .range (dtDecode [0xD8, 0x59, 0x23, 0x02, 0x13, 0x08, 0x18]) = true then
        Response.ok (.dateTime (dtDecode [0xD8, 0x59, 0x23, 0x02, 0x13, 0x08, 0x18]))
      else .error .invalidInputData) = .ok (.dateTime s7) := by
  refine ⟨by simp [inRanges, validHour, latest], by simp [inRanges, validHour, earliest], by decide⟩

theorem witness_GetDatetimeReadsDecodesChecks :
    ((sOk.busMem 0).readSpan 0x00 7).length = 7 ∧ calSane sOk.params.calSane s7 = true ∧
      calSane sOk.params.calSane feb30 = false ∧ calSane sFree.params.calSane feb30 = true := by decide

theorem witness_SetDatetimeWritesSevenBytes :
    (latest.year = BitVec.ofNat 16 ((0x33 : Byte).toNat + 256 * (0x08 : Byte).toNat) ∧
      latest.hour = .pm 12) ∧ (earliest.hour = .am 1 ∧ feb30.hour = .h24 0) ∧
      inRanges latest ∧ inRanges earliest ∧ inRanges feb30 ∧
      ¬ inRanges { latest with year := 2100 } ∧ ¬ inRanges { latest with second := 60 } := by
  refine ⟨by decide, by decide, ?_, ?_, ?_, ?_, ?_⟩ <;>
    simp [inRanges, validHour, latest, earliest, feb30]

theorem witness_DateTimeImageRoundTrip :
    inRanges latest ∧ inRanges earliest ∧ [0x00, 0x00, 0x00, 0x00, 0x00, 0x00, (0xFF : Byte)].length = 7 := by
  simp [inRanges, validHour, latest, earliest]

theorem witness_CalendarChecks :
    calSane .range feb30 = true ∧ calSane .gregorian latest = true ∧
      calSane .gregorian feb30 = false := by decide

theorem witness_SetThenGetDatetime :
    inRanges s7 ∧ calSane sOk.params.calSane s7 = true ∧ sOk.params.timekeeper = .frozen ∧
      (sOk.turnAt 0).answer = .ok ∧ (sOk.turnAt 1).answer = .ok ∧ (sOk.turnAt 2).answer = .ok :=
  ⟨by simp [inRanges, validHour, s7], by decide, by decide, by decide, by decide, by decide⟩

theorem witness_RunningReadsHaltBit :
    (sOk.turnAt 0).answer = .ok ∧ (sOk.busMem 0).get 0x00 = 0xD8 ∧
      (sFail.turnAt 0).answer = .fail ⟨7⟩ := by decide

theorem witness_SetRunningAndHaltChangeHaltBit :
    (0x7F : Byte).toNat < 128 ∧ 128 ≤ (0x80 : Byte).toNat ∧ (sOk.busMem 0).get 0x00 = 0xD8 ∧
      (sOkFail.turnAt 0).answer = .ok ∧ (sOkFail.turnAt 1).answer = .fail ⟨7⟩ ∧
      (sFree.turnAt 0).answer = .ok ∧ (sFree.busMem 1).get 0x00 = 0x80 := by decide

theorem witness_SquareWaveEnabledAndRateQueries :
    (0x90 : Byte).toNat % 4 = 0 ∧ (0xFD : Byte).toNat % 4 = 1 ∧ (0x02 : Byte).toNat % 4 = 2 ∧
      (0x93 : Byte).toNat % 4 = 3 ∧ (sOk.turnAt 0).answer = .ok ∧
      (sFail.turnAt 0).answer = .fail ⟨7⟩ := by decide

theorem witness_SquareWaveLevelQuery :
    128 ≤ (0x80 : Byte).toNat ∧ (0x7F : Byte).toNat < 128 ∧ (sOk.turnAt 0).answer = .ok ∧
      (sFail.turnAt 0).answer = .fail ⟨7⟩ := by decide

theorem witness_EnableAndDisableChangeEnableBit :
    (0x10 : Byte).toNat / 16 % 2 = 1 ∧ (0xEF : Byte).toNat / 16 % 2 = 0 ∧
      (sOk.busMem 0).get 0x07 = 0x90 ∧ (sOk.turnAt 0).answer = .ok ∧ (sOk.turnAt 1).answer = .ok := by
  decide

theorem witness_SetLevelChangesLevelBit :
    128 ≤ (0x91 : Byte).toNat ∧ (0x11 : Byte).toNat < 128 ∧ (sOk.turnAt 0).answer = .ok ∧
      (sOk.turnAt 1).answer = .ok := by decide

theorem witness_SetRateReplacesSelector :
    (Rate.hz8192 = .hz8192 ∧ (0x02 : Byte) = 0x02) ∧ (0x02 : Byte).toNat % 4 = (0x02 : Byte).toNat ∧
      (0x90 : Byte).toNat % 4 ≠ (0x02 : Byte).toNat := by decide

theorem witness_RamCheckOutcomes :
    ((1 : Nat) ≠ 0 ∧ (56 : Nat) ≥ 56) ∧ ((57 : Nat) ≠ 0 ∧ 0 + 57 > 56) ∧
      ((1 : Nat) ≠ 0 ∧ 55 < 56 ∧ 55 + 1 ≤ 56) := by decide

theorem witness_ReadRamReadsExactlyTheSpan :
    (0 : Byte).toNat = 0 ∧ (1 ≤ (1 : Byte).toNat ∧ (56 : Byte).toNat ≥ 56) ∧
      (1 ≤ (57 : Byte).toNat ∧ (0 : Byte).toNat + (57 : Byte).toNat > 56) ∧
      (1 ≤ (56 : Byte).toNat ∧ (0 : Byte).toNat + (56 : Byte).toNat ≤ 56) ∧
      (1 ≤ (1 : Byte).toNat ∧ (55 : Byte).toNat + (1 : Byte).toNat ≤ 56) := by decide

theorem witness_WriteRamWritesWholeOrNothing :
    ([] : List Byte).length = (0 : Byte).toNat ∧
      ([0x01, 0x02] : List Byte).length = (2 : Byte).toNat ∧
      (1 ≤ (2 : Byte).toNat ∧ (55 : Byte).toNat + (2 : Byte).toNat > 56) ∧
      (1 ≤ (2 : Byte).toNat ∧ (54 : Byte).toNat + (2 : Byte).toNat ≤ 56) := by decide

theorem witness_WriteThenReadRam :
    ([0xAA, 0xBB] : List Byte).length = (2 : Byte).toNat ∧ 1 ≤ (2 : Byte).toNat ∧
      (54 : Byte).toNat + (2 : Byte).toNat ≤ 56 ∧ (sFree.turnAt 0).answer = .ok ∧
      (sFree.turnAt 1).answer = .ok := by decide

theorem witness_InvalidInputExactlyWhen :
    (∃ t, exec (.setDay 32) sOk = .next t ∧ (Instr.setDay 32).rejected) ∧
      ∃ t, exec .getDatetime (machine [] [ok] []) = .next t ∧
        delivered (machine [] [ok] []) t (.error .invalidInputData) :=
  ⟨⟨_, rfl, by simp [Instr.rejected]⟩, ⟨_, rfl, by unfold delivered; decide⟩⟩

theorem witness_TransportErrorExactlyWhen :
    ∃ t, exec .setRunning sOkFail = .next t ∧ delivered sOkFail t (.error (.transport ⟨7⟩)) :=
  ⟨_, rfl, by unfold delivered; decide⟩

theorem witness_StateLeftByAnError :
    (∃ t, exec (.setMonth 13) sOk = .next t ∧ delivered sOk t (.error .invalidInputData)) ∧
      (∃ t, exec .getDatetime (machine [] [ok] []) = .next t ∧
        delivered (machine [] [ok] []) t (.error .invalidInputData)) ∧
      (∃ t, exec .halt sFail = .next t ∧ delivered sFail t (.error (.transport ⟨7⟩))) ∧
      ∃ t, exec .setRunning sOkFail = .next t ∧ delivered sOkFail t (.error (.transport ⟨7⟩)) :=
  ⟨⟨_, rfl, by unfold delivered; decide⟩, ⟨_, rfl, by unfold delivered; decide⟩,
    ⟨_, rfl, by unfold delivered; decide⟩, ⟨_, rfl, by unfold delivered; decide⟩⟩

theorem witness_FirstTransactionFailsOrHangs :
    (¬ (Instr.decodeBcd 0xFF).rejected ∧ (Instr.decodeBcd 0xFF).firstRequest = none) ∧
      (¬ Instr.halt.rejected ∧ Instr.halt.firstRequest = some (.read 0x00 1)) ∧
      (¬ (Instr.setMinutes 59).rejected ∧
        (Instr.setMinutes 59).firstRequest = some (.write 0x01 [0x59])) ∧
      (sFail.turnAt 0).answer = .fail ⟨7⟩ ∧ (sNever.turnAt 0).answer = .never :=
  ⟨⟨id, rfl⟩, ⟨id, rfl⟩, ⟨by simp [Instr.rejected], by decide⟩, by decide, by decide⟩

theorem witness_OneResponseOrHeldPort :
    (∃ t, exec .halt sOkNever = .next t ∧ t.port = .idle) ∧
      ∃ t, exec .setRunning sOkNever = .next t ∧ t.port = .hung :=
  ⟨⟨_, rfl, by decide⟩, ⟨_, rfl, by decide⟩⟩

theorem witness_TransactionsAreListedSequences :
    ∃ t, exec (.setDatetime s7) sOk = .next t ∧ t.trace.length = 2 := ⟨_, rfl, by decide⟩

theorem witness_BitsNotOwnedArePreserved :
    (∃ t, exec (.setSquareWaveOutputRate .hz32768) sOkFail = .next t) ∧
      sOkFail.params.writeFailEffect = .unchanged ∧
      (∃ t, exec .setRunning sFree = .next t) ∧ answerFailure (sFree.turnAt 0).answer = none ∧
      answerFailure (sFree.turnAt 1).answer = none :=
  ⟨⟨_, rfl⟩, by decide, ⟨_, rfl⟩, by decide, by decide⟩

theorem witness_OnlyNamedRegistersAreWritten :
    (∃ t, exec .setRunning sFree = .next t) ∧ ¬ Instr.setRunning.mayWrite 0x07 :=
  ⟨⟨_, rfl⟩, by simp [Instr.mayWrite]⟩

theorem witness_BlockKeepsNothing :
    sOk ≠ sOk.respond (.ok .unit) ∧ sOk.params = (sOk.respond (.ok .unit)).params ∧
      sOk.mem = (sOk.respond (.ok .unit)).mem ∧ sOk.turns = (sOk.respond (.ok .unit)).turns ∧
      sOk.draws = (sOk.respond (.ok .unit)).draws := by decide

theorem witness_HourModeIsTheWrittenVariant :
    validHour (.h24 23) ∧ validHour (.am 3) ∧ sOk.params.timekeeper = .frozen ∧
      (sOk.turnAt 0).answer = .ok ∧ (sOk.turnAt 1).answer = .ok ∧
      (∃ t, exec .halt sOk = .next t) ∧ (∀ hour, Instr.halt ≠ .setHours hour) ∧
      ∀ dt, Instr.halt ≠ .setDatetime dt :=
  ⟨by simp [validHour], by simp [validHour], by decide, by decide, by decide, ⟨_, rfl⟩, nofun, nofun⟩

theorem witness_MemReadContract :
    dateTimeSpan.addr + dateTimeSpan.len = 7 ∧ (sOk.turnAt 0).answer = .ok ∧ 6 < dateTimeSpan.len ∧
      (sFail.turnAt 0).answer = .fail ⟨7⟩ := by decide

theorem witness_MemWriteContract :
    (Reg.sqw.payload 0x93).data.length = 1 ∧ (sOk.turnAt 0).answer = .ok ∧
      (sFail.turnAt 0).answer = .fail ⟨7⟩ ∧ sFail.params.writeFailEffect = .unchanged ∧
      0x06 < (Reg.sqw.payload 0x93).addr := by decide

theorem witness_StepRunsTheDecodedInstruction :
    (machine file [ok] [0x10, 0x11]).port = .idle ∧
      decodeFrame (machine file [ok] [0x10, 0x11]).input = .ok (.getSeconds, [0x11]) := by decide

theorem witness_StepWithoutACommand :
    (sOk.port = .idle ∧ sOk.input = []) ∧ sNever.hang.port = .hung := by decide

theorem witness_ReservedFramesAreRefused :
    ((0x04 ≤ (0x0F : Byte).toNat ∧ (0x0F : Byte).toNat ≤ 0x0F) ∧ 0x52 ≤ (0x52 : Byte).toNat) ∧
      3 ≤ (0x03 : Byte).toNat ∧ 2 ≤ (0x02 : Byte).toNat ∧ 4 ≤ (0x04 : Byte).toNat ∧
      ((Instr.writeRam 0 [0x11]).wellFormed = true ∧ 3 < (encode (.writeRam 0 [0x11])).length) ∧
      ((machine file [ok] [0x47]).port = .idle ∧ (machine file [ok] [0x47]).input ≠ [] ∧
        decodeFrame (machine file [ok] [0x47]).input = .error (.reservedOpcode 0x47)) := by decide

theorem witness_DecodeOfEncode :
    (Instr.writeRam 54 [0xAA, 0xBB]).wellFormed = true ∧
      (Instr.setDatetime latest).wellFormed = true := by decide

theorem witness_EncodeOfDecode :
    decodeFrame [0x46, 0x03, 0x10] = .ok (.setSquareWaveOutputRate .hz32768, [0x10]) := by decide

theorem witness_LaunchStates : (List.replicate 64 (0x00 : Byte)).length = 64 := by
  rw [List.length_replicate]

theorem witness_StepKeepsInvariant :
    (machine file [ok, ok] [0x31]).Inv ∧ ∃ t, step (machine file [ok, ok] [0x31]) = .next t :=
  ⟨⟨by decide, by simp [machine]⟩, ⟨_, rfl⟩⟩

theorem witness_GettersInRangeUnderWF : WF (sOk.busMem 0) ∧ (sOk.turnAt 0).answer = .ok := by
  refine ⟨⟨?_, ?_, ?_, ?_, ?_, ?_, ?_⟩, by decide⟩ <;>
    simp only [wfSeconds, packedBcd, wfHours, wfWeekday] <;> decide

theorem witness_SettersEstablishWF :
    (∃ t, exec (.setSeconds 59) sOk = .next t ∧ delivered sOk t (.ok .unit)) ∧
      (∃ t, exec (.setHours (.pm 12)) sOk = .next t ∧ delivered sOk t (.ok .unit)) ∧
      ∃ t, exec (.setDatetime latest) sOk = .next t ∧ delivered sOk t (.ok .unit) :=
  ⟨⟨_, rfl, by unfold delivered; decide⟩, ⟨_, rfl, by unfold delivered; decide⟩,
    ⟨_, rfl, by unfold delivered; decide⟩⟩

end Sys2Proof.Tests
end

namespace Sys2Proof.Machine

/-! ## What an operation may depend on (R20)

An operation's parts are compared on two states that share what R20 lets a result depend on. -/

/-- The states share the parameters, the register space and the coming environment. -/
structure SameInputs (s s' : State) : Prop where
  params : s.params = s'.params
  mem : s.mem = s'.mem
  turns : s.turns = s'.turns
  draws : s.draws = s'.draws

theorem SameInputs.symm {s s' : State} (h : SameInputs s s') : SameInputs s' s :=
  ⟨h.params.symm, h.mem.symm, h.turns.symm, h.draws.symm⟩

theorem SameInputs.trans {s t u : State} (h : SameInputs s t) (k : SameInputs t u) :
    SameInputs s u :=
  ⟨h.params.trans k.params, h.mem.trans k.mem, h.turns.trans k.turns, h.draws.trans k.draws⟩

/-- From `s` to `t` and from `s'` to `t'` the same transactions were issued and nothing was delivered,
and `t` and `t'` share their inputs again. -/
structure RunAlike (s s' t t' : State) : Prop where
  inputs : SameInputs t t'
  output_left : t.output = s.output
  output_right : t'.output = s'.output
  events : ∃ evs, issued s t evs ∧ issued s' t' evs

/-- A part of an operation ends alike from all states that share their inputs. -/
def Action.KeepsNothing {α : Type} (a : Action α) : Prop :=
  ∀ s s', SameInputs s s' → (a s).1 = (a s').1 ∧ RunAlike s s' (a s).2 (a s').2

theorem SameInputs.turnAt_eq {s s' : State} (h : SameInputs s s') (k : Nat) :
    s.turnAt k = s'.turnAt k := by
  simp [State.turnAt, h.turns, h.draws]

theorem SameInputs.busMem_eq {s s' : State} (h : SameInputs s s') : s.busMem 0 = s'.busMem 0 := by
  rw [State.busMem_zero, State.busMem_zero, h.mem, h.params, h.turnAt_eq 0]

theorem SameInputs.rdAt_eq {s s' : State} (h : SameInputs s s') : rdAt s = rdAt s' := by
  funext addr n o
  simp [rdAt, h.params]

theorem SameInputs.wrAt_eq {s s' : State} (h : SameInputs s s') : wrAt s = wrAt s' := by
  funext addr data o
  simp [wrAt, h.params]

theorem SameInputs.memAfterFailedWrite_eq {s s' : State} (h : SameInputs s s') (p : Payload) :
    s.memAfterFailedWrite p = s'.memAfterFailedWrite p := by
  simp [State.memAfterFailedWrite, State.leftovers, h.params, h.busMem_eq, h.turnAt_eq 0, h.draws]

theorem RunAlike.refl {s s' : State} (h : SameInputs s s') : RunAlike s s' s s' :=
  ⟨h, rfl, rfl, [], by simp [issued]⟩

theorem RunAlike.trans {s s' t t' u u' : State} (h : RunAlike s s' t t') (k : RunAlike t t' u u') :
    RunAlike s s' u u' := by
  obtain ⟨-, ho, ho', evs, he, he'⟩ := h
  obtain ⟨hi, ko, ko', evs₂, ke, ke'⟩ := k
  refine ⟨hi, ko.trans ho, ko'.trans ho', evs ++ evs₂, ?_⟩
  simp_all [issued]

theorem RunAlike.begin {s s' : State} (h : SameInputs s s') : RunAlike s s' s.begin s'.begin :=
  ⟨⟨h.params, h.busMem_eq, congrArg List.tail h.turns, congrArg (· + 1) h.draws⟩, rfl, rfl, [],
    by simp [issued]⟩

theorem RunAlike.record {s s' t t' : State} (h : RunAlike s s' t t') (e : BusEvent) :
    RunAlike s s' (t.record e) (t'.record e) := by
  obtain ⟨hi, ho, ho', evs, he, he'⟩ := h
  refine ⟨⟨hi.params, hi.mem, hi.turns, hi.draws⟩, ho, ho', evs ++ [e], ?_⟩
  simp_all [issued]

theorem RunAlike.withMem {s s' t t' : State} (h : RunAlike s s' t t') (m : Memory) :
    RunAlike s s' (t.withMem m) (t'.withMem m) :=
  ⟨⟨h.inputs.params, rfl, h.inputs.turns, h.inputs.draws⟩, h.output_left, h.output_right, h.events⟩

/-! ## Every part of an operation keeps nothing -/

theorem keepsNothing_ret {α : Type} (a : α) : (ret a).KeepsNothing :=
  fun _ _ h => ⟨rfl, .refl h⟩

theorem keepsNothing_raise {α : Type} (e : OpError) : (raise e : Action α).KeepsNothing :=
  fun _ _ h => ⟨rfl, .refl h⟩

theorem Action.KeepsNothing.andThen {α β : Type} {a : Action α} {rest : α → Action β}
    (ha : a.KeepsNothing) (hrest : ∀ x, (rest x).KeepsNothing) : (a.andThen rest).KeepsNothing := by
  intro s s' h
  obtain ⟨hend, halike⟩ := ha s s' h
  rcases hs : a s with ⟨v, t⟩
  rcases hs' : a s' with ⟨v', t'⟩
  simp only [hs, hs'] at hend halike
  subst hend
  cases v with
  | value x =>
    rw [Action.andThen_value hs, Action.andThen_value hs']
    obtain ⟨hend, hrun⟩ := hrest x t t' halike.inputs
    exact ⟨hend, halike.trans hrun⟩
  | raised e =>
    rw [Action.andThen_raised hs, Action.andThen_raised hs']
    exact ⟨rfl, halike⟩
  | hung =>
    rw [Action.andThen_hung hs, Action.andThen_hung hs']
    exact ⟨rfl, halike⟩

theorem Action.KeepsNothing.done {a : Action Unit} (ha : a.KeepsNothing) :
    (Machine.done a).KeepsNothing :=
  ha.andThen fun _ => keepsNothing_ret _

theorem keepsNothing_memRead (sp : Span) : (memRead sp).KeepsNothing := by
  intro s s' h
  have hturn := congrArg Turn.answer (h.turnAt_eq 0)
  cases ha : (s.turnAt 0).answer with
  | ok =>
    rw [memRead_ok sp ha, memRead_ok sp (hturn.symm.trans ha), h.busMem_eq, h.rdAt_eq]
    exact ⟨rfl, (RunAlike.begin h).record _⟩
  | fail e =>
    rw [memRead_fail sp ha, memRead_fail sp (hturn.symm.trans ha), h.rdAt_eq]
    exact ⟨rfl, (RunAlike.begin h).record _⟩
  | never =>
    rw [memRead_never sp ha, memRead_never sp (hturn.symm.trans ha)]
    exact ⟨rfl, .begin h⟩

theorem keepsNothing_memWrite (p : Payload) : (memWrite p).KeepsNothing := by
  intro s s' h
  have hturn := congrArg Turn.answer (h.turnAt_eq 0)
  cases ha : (s.turnAt 0).answer with
  | ok =>
    rw [memWrite_ok p ha, memWrite_ok p (hturn.symm.trans ha), h.busMem_eq, h.wrAt_eq]
    exact ⟨rfl, ((RunAlike.begin h).withMem _).record _⟩
  | fail e =>
    rw [memWrite_fail p ha, memWrite_fail p (hturn.symm.trans ha), h.memAfterFailedWrite_eq p, h.wrAt_eq]
    exact ⟨rfl, ((RunAlike.begin h).withMem _).record _⟩
  | never =>
    rw [memWrite_never p ha, memWrite_never p (hturn.symm.trans ha)]
    exact ⟨rfl, .begin h⟩

theorem keepsNothing_readReg (r : Reg) : (readReg r).KeepsNothing :=
  (keepsNothing_memRead r.span).andThen fun _ => keepsNothing_ret _

/-- Every instruction performs an action that depends on the state through the parameters alone and
keeps nothing else: the five transaction shapes are built of parts that do. -/
theorem exec_eq_perform_keepsNothing (i : Instr) : ∃ a : Params → Action Value,
    (∀ s, exec i s = perform (a s.params) s) ∧ ∀ p, (a p).KeepsNothing := by
  cases exec_shape i with
  | answers v h => exact ⟨fun _ => ret v, h, fun _ => keepsNothing_ret v⟩
  | rejects h => exact ⟨fun _ => raise _, h, fun _ => keepsNothing_raise _⟩
  | reads sp k h pure =>
    refine ⟨fun p => (memRead sp).andThen (k p), h, fun p => ?_⟩
    refine (keepsNothing_memRead sp).andThen fun bs => ?_
    rcases pure p bs with ⟨v, hv⟩ | ⟨hv, -⟩
    · rw [hv]; exact keepsNothing_ret v
    · rw [hv]; exact keepsNothing_raise _
  | writes p h => exact ⟨fun _ => done (memWrite p), h, fun _ => (keepsNothing_memWrite p).done⟩
  | readsThenWrites r k h =>
    refine ⟨fun _ => _, h, fun _ => ((keepsNothing_readReg r).andThen fun b => ?_).done⟩
    cases k b with
    | none => exact keepsNothing_ret ()
    | some p => exact keepsNothing_memWrite p

/-! ## The end of an operation -/

/-- The response that the end of an operation delivers, if it ends. -/
def Ended.responses : Ended Value → List Response
  | .value v => [.ok v]
  | .raised e => [.error e]
  | .hung => []

theorem deliver_output (x : Ended Value × State) :
    (deliver x).output = x.2.output ++ x.1.responses := by
  obtain ⟨x, s⟩ := x
  cases x <;> simp [deliver, Ended.responses]

theorem deliver_trace (x : Ended Value × State) : (deliver x).trace = x.2.trace := by
  obtain ⟨x, s⟩ := x
  cases x <;> rfl

/-- The end of an operation changes nothing that a later result may depend on (R218, R219). -/
theorem sameInputs_deliver (x : Ended Value × State) : SameInputs (deliver x) x.2 := by
  obtain ⟨x, s⟩ := x
  cases x <;> exact ⟨rfl, rfl, rfl, rfl⟩

/-- Settles O43: every instruction is the performance of an action that keeps nothing, and its end adds
the same responses to both outputs. -/
theorem blockKeepsNothing : Obligations.BlockKeepsNothing := by
  intro i s s' hparams hmem hturns hdraws
  obtain ⟨a, hexec, hkeeps⟩ := exec_eq_perform_keepsNothing i
  obtain ⟨hend, hrun⟩ := hkeeps s.params s s' ⟨hparams, hmem, hturns, hdraws⟩
  obtain ⟨evs, hev, hev'⟩ := hrun.events
  have hexec' : exec i s' = perform (a s.params) s' := hparams ▸ hexec s'
  have hsame : SameInputs (deliver (a s.params s)) (deliver (a s.params s')) :=
    (sameInputs_deliver _).trans (hrun.inputs.trans (sameInputs_deliver _).symm)
  refine ⟨_, _, (a s.params s).1.responses, evs, hexec s, hexec', ?_, ?_, ?_, ?_,
    hsame.mem, hsame.params, hsame.turns, hsame.draws⟩
  · rw [deliver_output, hrun.output_left]
  · rw [deliver_output, hrun.output_right, hend]
  · exact (deliver_trace _).trans hev
  · exact (deliver_trace _).trans hev'

end Sys2Proof.Machine

namespace Sys2Proof.Machine

/-! ## The invariant (R24, R95)

Each update of the state keeps `State.Inv`; what an operation leaves is made of these updates. -/

section

variable {s : State}

theorem State.Inv.mem_wf (h : s.Inv) : s.mem.wf = true := h.1

theorem State.Inv.trace_listed (h : s.Inv) : ∀ e ∈ s.trace, listedFrame s.params.devAddr e := h.2

theorem State.Inv.begin (h : s.Inv) : s.begin.Inv := ⟨State.wf_busMem h.mem_wf 0, h.trace_listed⟩

theorem State.Inv.withMem (h : s.Inv) {m : Memory} (hm : m.wf = true) : (s.withMem m).Inv :=
  ⟨hm, h.trace_listed⟩

theorem State.Inv.record (h : s.Inv) {e : BusEvent} (he : listedFrame s.params.devAddr e) :
    (s.record e).Inv := by
  refine ⟨h.mem_wf, fun e' he' => ?_⟩
  rw [State.record_trace, List.mem_append, List.mem_singleton] at he'
  rcases he' with hold | rfl
  · exact h.trace_listed e' hold
  · exact he

theorem State.Inv.respond (h : s.Inv) (r : Response) : (s.respond r).Inv := h

theorem State.Inv.hang (h : s.Inv) : s.hang.Inv := h

theorem State.Inv.accept (h : s.Inv) (bs : List Byte) : (s.accept bs).Inv := h

end

theorem listedFrame_rdAt (s : State) {addr n : Nat} {o : ReadOutcome} (hl : listedSpan addr n)
    (ho : ∀ data, o = .ok data → data.length = n) :
    listedFrame s.params.devAddr (rdAt s addr n o) :=
  ⟨rfl, ⟨addr, rfl, hl⟩, ho⟩

theorem listedFrame_rdAt_readSpan (s : State) {addr n : Nat} (m : Memory) (hl : listedSpan addr n) :
    listedFrame s.params.devAddr (rdAt s addr n (.ok (m.readSpan addr n))) :=
  listedFrame_rdAt s hl (by rintro _ ⟨⟩; exact m.length_readSpan addr n)

theorem listedFrame_wrAt (s : State) {addr : Nat} {data : List Byte} (o : WriteOutcome)
    (hl : listedSpan addr data.length) : listedFrame s.params.devAddr (wrAt s addr data o) :=
  ⟨rfl, addr, data, rfl, hl⟩

/-- Whatever form a next state of `exec` has, it keeps the invariant and the parameters. -/
theorem Ran.inv {i : Instr} {s t : State} (hr : Ran i s t) (h : s.Inv) :
    t.Inv ∧ t.params = s.params := by
  refine ⟨?_, ?_⟩
  · cases hr with
    | quiet r => exact h.respond r
    | hung => exact h.begin.hang
    | read addr n o r listed fresh =>
      refine (h.begin.record (listedFrame_rdAt s listed fun data ho => ?_)).respond r
      rw [fresh data ho, Memory.length_readSpan]
    | wrote p o m r listed _ _ _ _ _ wf =>
      exact ((h.begin.withMem (wf h.mem_wf)).record (listedFrame_wrAt s o listed)).respond r
    | readHung addr n bs listed fresh =>
      subst fresh
      exact (h.begin.record (listedFrame_rdAt_readSpan s _ listed)).begin.hang
    | readWrote addr n bs p o m r listedRead fresh listed _ _ _ _ _ wf =>
      subst fresh
      exact (((h.begin.record (listedFrame_rdAt_readSpan s _ listedRead)).begin.withMem
        (wf h.mem_wf)).record (listedFrame_wrAt s o listed)).respond r
  · cases hr <;> rfl

/-- Settles O56: nothing is listed and nothing was traced at reset. -/
theorem resetHasInvariant : Obligations.ResetHasInvariant :=
  ⟨Memory.wf_nil, by simp [State.reset]⟩

/-- What a step to a next state does: it stays idle, or runs the command accepted from the port. -/
theorem step_eq_next {s t : State} (h : step s = .next t) :
    t = s ∨ ∃ i rest, exec i (s.accept rest) = .next t := by
  unfold step at h
  cases ho : offer s with
  | occupied => simp [ho] at h
  | nothing => simp only [ho, Host.Outcome.next.injEq] at h; exact .inl h.symm
  | command i rest => simp only [ho] at h; exact .inr ⟨i, rest, h⟩
  | reserved e => simp [ho] at h

/-- Settles O58: an idle step changes nothing, and a command that runs keeps the invariant. -/
theorem stepKeepsInvariant : Obligations.StepKeepsInvariant := by
  intro s t hinv hstep
  rcases step_eq_next hstep with rfl | ⟨i, rest, hexec⟩
  · exact ⟨hinv, rfl⟩
  · exact (ran_of_exec hexec).inv (hinv.accept rest)

end Sys2Proof.Machine

namespace Sys2Proof.Machine

/-! ## Bits that an operation does not change (R34, R64) -/

/-- The bytes agree on every bit outside the mask. -/
def AgreeOff (mask x y : Byte) : Prop := x &&& ~~~mask = y &&& ~~~mask

theorem AgreeOff.of_eq {mask x y : Byte} (h : x = y) : AgreeOff mask x y := congrArg (· &&& _) h

theorem AgreeOff.of_all {x y : Byte} : AgreeOff 0xFF x y := by simp [AgreeOff]

theorem AgreeOff.trans {mask x y z : Byte} (h : AgreeOff mask x y) (k : AgreeOff mask y z) :
    AgreeOff mask x z := Eq.trans h k

theorem AgreeOff.or_right {mask x y : Byte} (h : AgreeOff mask x y) (more : Byte) :
    AgreeOff (mask ||| more) x y := by
  unfold AgreeOff at *
  rw [BitVec.not_or, ← BitVec.and_assoc, ← BitVec.and_assoc, h]

theorem AgreeOff.or_left {mask x y : Byte} (h : AgreeOff mask x y) (more : Byte) :
    AgreeOff (more ||| mask) x y := by
  rw [BitVec.or_comm]; exact h.or_right more

/-- Bytes with the same halt bit agree outside bits 6:0. -/
theorem agreeOff_of_getLsbD_seven {x y : Byte} (h : x.getLsbD 7 = y.getLsbD 7) : AgreeOff 0x7F x y := by
  have hx := x.isLt
  have hy := y.isLt
  simp only [getLsbD_toNat, decide_eq_decide] at h
  apply BitVec.eq_of_toNat_eq
  change (x &&& 0x80).toNat = (y &&& 0x80).toNat
  rw [toNat_and_80, toNat_and_80]
  omega

/-- The timekeeper's act changes no bit outside `timekeeperBits` (R64). -/
theorem agreeOff_tick (m : Memory) (k : Timekeeper) (t : Option Tick) (a : Nat) :
    AgreeOff (timekeeperBits k a) ((m.tick k t).get a) (m.get a) := by
  obtain ⟨hhalt, habove⟩ := timekeeperKeeps_tick m k t
  cases k with
  | frozen => rfl
  | free =>
    by_cases ha : 0x07 ≤ a
    · exact .of_eq (habove a ha)
    · by_cases h0 : a = 0
      · subst h0
        exact agreeOff_of_getLsbD_seven hhalt
      · have hall : timekeeperBits .free a = 0xFF := by
          simp only [timekeeperBits]; rw [if_neg h0, if_pos (by omega)]
        rw [hall]; exact .of_all

/-- Before a coming transaction the register space differs from the present one in the timekeeper's bits
alone. -/
theorem agreeOff_busMem (s : State) (k a : Nat) :
    AgreeOff (timekeeperBits s.params.timekeeper a) ((s.busMem k).get a) (s.mem.get a) := by
  induction k with
  | zero => exact agreeOff_tick _ _ _ a
  | succ k ih => exact (agreeOff_tick _ _ _ a).trans ih

/-- A register that the operation's rule does not name differs in the timekeeper's bits alone. -/
theorem Ran.agreeOff_of_not_mayWrite {i : Instr} {s t : State} (hr : Ran i s t) {a : Nat}
    (ha : ¬ i.mayWrite a) :
    AgreeOff (timekeeperBits s.params.timekeeper a) (t.mem.get a) (s.mem.get a) := by
  cases hr with
  | quiet => rfl
  | hung => exact agreeOff_busMem s 0 a
  | read => exact agreeOff_busMem s 0 a
  | wrote p o m r _ owned outside =>
    exact (AgreeOff.of_eq (outside a fun hx => ha (owned a hx.1 hx.2))).trans (agreeOff_busMem s 0 a)
  | readHung => simpa using agreeOff_busMem s 1 a
  | readWrote addr n bs p o m r _ _ _ owned outside =>
    exact (AgreeOff.of_eq (outside a fun hx => ha (owned a hx.1 hx.2))).trans (agreeOff_busMem s 1 a)

/-- Settles O42: a register outside the written span is as the timekeeper left it. -/
theorem onlyNamedRegistersAreWritten : Obligations.OnlyNamedRegistersAreWritten :=
  fun _ _ _ hexec _ ha => (ran_of_exec hexec).agreeOff_of_not_mayWrite ha

/-- Where a failed write is ruled out or leaves the registers unchanged, the memory after a write is the
one before it, or the one with the payload written. -/
theorem writeSpan_or_sameRegs {o : WriteOutcome} {eff : WriteFailEffect} {m m' : Memory} {p : Payload}
    (hpremise : eff = .unchanged ∨ o.failure = none)
    (failed : o ≠ .ok → eff = .unchanged → sameRegs m m')
    (inside : o = .ok → m' = m.writeSpan p.addr p.data) :
    m' = m.writeSpan p.addr p.data ∨ sameRegs m m' := by
  cases o with
  | ok => exact .inl (inside rfl)
  | fail e =>
    rcases hpremise with heff | hnone
    · exact .inr (failed nofun heff)
    · cases hnone

/-- If the bytes of a payload keep the bits outside the mask, so does the register space after the
write, from a register space that only the timekeeper has changed. -/
theorem agreeOff_of_writeSpan_or_sameRegs {s : State} {k a : Nat} {m : Memory} {p : Payload}
    (owned : Byte) (hm : m = (s.busMem k).writeSpan p.addr p.data ∨ sameRegs (s.busMem k) m)
    (hdata : p.addr ≤ a → a < p.addr + p.data.length →
      AgreeOff (owned ||| timekeeperBits s.params.timekeeper a) (p.data.getD (a - p.addr) 0)
        (s.mem.get a)) :
    AgreeOff (owned ||| timekeeperBits s.params.timekeeper a) (m.get a) (s.mem.get a) := by
  have hbus := (agreeOff_busMem s k a).or_left owned
  rcases hm with rfl | hsame
  · rw [Memory.get_writeSpan]
    split
    · next hin => exact hdata hin.1 hin.2
    · exact hbus
  · rwa [hsame a]

/-- Where a failed write is ruled out or leaves the registers unchanged, a register differs in the bits
that the operation owns and those of the timekeeper alone. -/
theorem Ran.agreeOff_ownedBits {i : Instr} {s t : State} (hr : Ran i s t)
    (hpremise : s.params.writeFailEffect = .unchanged ∨
      (answerFailure (s.turnAt 0).answer = none ∧ answerFailure (s.turnAt 1).answer = none)) (a : Nat) :
    AgreeOff (i.ownedBits a ||| timekeeperBits s.params.timekeeper a) (t.mem.get a) (s.mem.get a) := by
  have hall : ∀ {x y : Byte}, i.ownedBits a = 0xFF →
      AgreeOff (i.ownedBits a ||| timekeeperBits s.params.timekeeper a) x y := fun h => by
    rw [h]; exact AgreeOff.of_all.or_right _
  cases hr with
  | quiet => rfl
  | hung => exact (agreeOff_busMem s 0 a).or_left _
  | read => exact (agreeOff_busMem s 0 a).or_left _
  | wrote p o m r _ _ _ failed inside whole _ _ answer =>
    have hm := writeSpan_or_sameRegs (hpremise.imp_right fun h => answer.trans h.1) failed inside
    exact agreeOff_of_writeSpan_or_sameRegs _ hm fun h1 h2 => hall (whole a h1 h2)
  | readHung =>
    have hbus := (agreeOff_busMem s 1 a).or_left (i.ownedBits a)
    simpa using hbus
  | readWrote addr n bs p o m r _ _ _ _ _ failed inside keeps _ _ _ answer =>
    have hm := writeSpan_or_sameRegs (hpremise.imp_right fun h => answer.trans h.2) failed inside
    refine agreeOff_of_writeSpan_or_sameRegs _ hm fun h1 h2 => ?_
    rcases keeps a h1 h2 with howned | ⟨rfl, hkept⟩
    · exact hall howned
    · have hread : AgreeOff (i.ownedBits a) (p.data.getD (a - p.addr) 0) ((s.busMem 0).get a) := hkept
      exact (hread.or_right _).trans ((agreeOff_busMem s 0 a).or_left _)

/-- Settles O41: a written register is owned whole or written with the unowned bits as read, and the
byte read differs from the one before in the timekeeper's bits alone. -/
theorem bitsNotOwnedArePreserved : Obligations.BitsNotOwnedArePreserved :=
  fun _ _ _ hexec hpremise a => (ran_of_exec hexec).agreeOff_ownedBits hpremise a

end Sys2Proof.Machine

namespace Sys2Proof.Machine

/-! ## The well-formed register file (R38): getters -/

theorem packedBcd.bcdDecode_mem {lo hi : Nat} {b : Byte} (h : packedBcd lo hi b) :
    lo ≤ (bcdDecode b).toNat ∧ (bcdDecode b).toNat ≤ hi := by
  rw [bcdDecode_toNat]; exact h.2.2

theorem packedBcd.yearDecode_mem {b : Byte} (h : packedBcd 0 99 b) :
    2000 ≤ (yearDecode b).toNat ∧ (yearDecode b).toNat ≤ 2099 := by
  obtain ⟨-, -, -, hhi⟩ := h
  rw [yearDecode_toNat]; omega

theorem wfHours.validHour_hoursDecode {b : Byte} (h : wfHours b) : validHour (hoursDecode b) := by
  obtain ⟨-, ⟨h6, hbcd⟩ | ⟨h6, hbcd⟩⟩ := h
  · rw [hoursDecode, if_pos h6]
    exact hbcd.bcdDecode_mem.2
  · rw [hoursDecode, if_neg (by simp [h6])]
    split <;> exact hbcd.bcdDecode_mem

theorem WF.inRanges_dtDecode {m : Memory} (h : WF m) : inRanges (dtDecode (m.readSpan 0x00 7)) :=
  ⟨h.year.yearDecode_mem, h.month.bcdDecode_mem, h.day.bcdDecode_mem, h.weekday,
    h.hours.validHour_hoursDecode, h.minutes.bcdDecode_mem.2,
    packedBcd.bcdDecode_mem (lo := 0) h.seconds |>.2⟩

/-- A register query that is answered delivers what the byte on the bus decodes to. -/
theorem exec_query_delivers {α : Type} {i : Instr} (r : Reg) (mk : α → Value) (f : Byte → α)
    (h : ∀ s, exec i s = perform ((readReg r).andThen fun b => ret (mk (f b))) s) {s : State}
    (hok : (s.turnAt 0).answer = .ok) {P : α → Prop} (hP : P (f ((s.busMem 0).get r.addr))) :
    ∃ v t, exec i s = .next t ∧ delivered s t (.ok (mk v)) ∧ P v := by
  obtain ⟨t, hexec, hout, -⟩ := (queries_of r h s).1 hok _ rfl
  exact ⟨_, t, hexec, hout, hP⟩

/-- Settles O59: each getter delivers the decoded byte, which the clause of `WF` bounds. -/
theorem gettersInRangeUnderWF : Obligations.GettersInRangeUnderWF := by
  intro s hwf hok
  exact ⟨exec_query_delivers .seconds .u8 _ (fun _ => rfl) hok (packedBcd.bcdDecode_mem hwf.seconds).2,
    exec_query_delivers .minutes .u8 _ (fun _ => rfl) hok hwf.minutes.bcdDecode_mem.2,
    exec_query_delivers .hours .hour _ (fun _ => rfl) hok hwf.hours.validHour_hoursDecode,
    exec_query_delivers .weekday .u8 id (fun _ => rfl) hok hwf.weekday,
    exec_query_delivers .day .u8 _ (fun _ => rfl) hok hwf.day.bcdDecode_mem,
    exec_query_delivers .month .u8 _ (fun _ => rfl) hok hwf.month.bcdDecode_mem,
    exec_query_delivers .year .u16 _ (fun _ => rfl) hok hwf.year.yearDecode_mem,
    hwf.inRanges_dtDecode⟩

/-! ## The well-formed register file (R38): setters -/

theorem packedBcd_of_sixtyOk {v : Byte} (h : sixtyOk v = true) : packedBcd 0 59 (bcdEncode v) := by
  simp only [sixtyOk, decide_eq_true_eq] at h
  exact packedBcd_bcdEncode (by omega) (Nat.zero_le _) h

theorem wfSeconds_secondsByte {v : Byte} (r : Byte) (h : sixtyOk v = true) :
    wfSeconds (secondsByte r v) := by
  rw [wfSeconds, secondsByte_and_7F r (by simpa [sixtyOk] using h)]
  exact packedBcd_of_sixtyOk h

theorem packedBcd_of_dayOk {v : Byte} (h : dayOk v = true) : packedBcd 1 31 (bcdEncode v) := by
  simp only [dayOk, decide_eq_true_eq] at h
  exact packedBcd_bcdEncode (by omega) h.1 h.2

theorem packedBcd_of_monthOk {v : Byte} (h : monthOk v = true) : packedBcd 1 12 (bcdEncode v) := by
  simp only [monthOk, decide_eq_true_eq] at h
  exact packedBcd_bcdEncode (by omega) h.1 h.2

theorem packedBcd_of_yearOk {v : Half} (h : yearOk v = true) : packedBcd 0 99 (yearByte v) := by
  have hoff := yearOffset_toNat h
  simp only [yearOk, decide_eq_true_eq] at h
  exact packedBcd_bcdEncode (by omega) (Nat.zero_le _) (by omega)

theorem wfWeekday_of_weekdayOk {v : Byte} (h : weekdayOk v = true) : wfWeekday v := by
  simpa [weekdayOk, wfWeekday] using h

/-- The byte of an AM hour is 64 above the BCD number and that of a PM hour 96 (R121); either satisfies the
clause. -/
theorem wfHours_of_twelveHourByte {h b : Byte} (hh : 1 ≤ h.toNat ∧ h.toNat ≤ 12)
    (hb : b.toNat = 64 + (bcdEncode h).toNat ∨ b.toNat = 96 + (bcdEncode h).toNat) : wfHours b := by
  have hbyte := bcdEncode_toNat_of_le (d := h) (by omega)
  have hmask : b &&& 0x1F = bcdEncode h := BitVec.eq_of_toNat_eq (by rw [toNat_and_1F]; omega)
  simp only [wfHours, getLsbD_toNat, hmask]
  exact ⟨decide_eq_false (by omega), .inr ⟨decide_eq_true (by omega),
    packedBcd_bcdEncode (by omega) hh.1 hh.2⟩⟩

theorem wfHours_hourByte {hour : Hour} (h : hourValid hour = true) : wfHours (hourByte hour) := by
  cases hour with
  | h24 h' =>
    simp only [hourValid, decide_eq_true_eq] at h
    have hbyte := bcdEncode_toNat_of_le (d := h') (by omega)
    have hmask : bcdEncode h' &&& 0x3F = bcdEncode h' :=
      BitVec.eq_of_toNat_eq (by rw [toNat_and_3F]; omega)
    simp only [hourByte, wfHours, getLsbD_toNat, hmask]
    exact ⟨decide_eq_false (by omega), .inl ⟨decide_eq_false (by omega),
      packedBcd_bcdEncode (by omega) (Nat.zero_le _) h⟩⟩
  | am h' =>
    simp only [hourValid, decide_eq_true_eq] at h
    exact wfHours_of_twelveHourByte h (.inl (toNat_amByte h.2))
  | pm h' =>
    simp only [hourValid, decide_eq_true_eq] at h
    exact wfHours_of_twelveHourByte h (.inr (toNat_pmByte h.2))

/-- The seven-byte write makes the register file well formed, whatever was there. -/
theorem wf_writeSpan_dtPayload (m : Memory) (r0 : Byte) {dt : DateTime} (h : dtRangesOk dt = true) :
    WF (m.writeSpan 0x00 (dtPayload r0 dt)) := by
  obtain ⟨hy, hmo, hd, hw, hh, hmi, hs⟩ := (dtRangesOk_iff dt).mp h
  constructor <;> rw [Memory.get_writeSpan]
  · exact wfSeconds_secondsByte r0 hs
  · exact packedBcd_of_sixtyOk hmi
  · exact wfHours_hourByte hh
  · exact wfWeekday_of_weekdayOk hw
  · exact packedBcd_of_dayOk hd
  · exact packedBcd_of_monthOk hmo
  · exact packedBcd_of_yearOk hy

/-- A part of an operation keeps nothing, and where it ends with a value the register space it leaves
satisfies `P`. -/
structure Action.Establishes {α : Type} (a : Action α) (P : Memory → Prop) : Prop where
  keeps : a.KeepsNothing
  mem : ∀ s v s', a s = (.value v, s') → P s'.mem

theorem establishes_raise {α : Type} (e : OpError) (P : Memory → Prop) :
    (raise e : Action α).Establishes P :=
  ⟨keepsNothing_raise e, nofun⟩

theorem establishes_require {α : Type} {ok : Bool} {rest : Action α} {P : Memory → Prop}
    (h : ok = true → rest.Establishes P) : (require ok rest).Establishes P := by
  cases ok with
  | true => exact h rfl
  | false => exact establishes_raise _ P

theorem Action.KeepsNothing.andThen_establishes {α β : Type} {a : Action α} (ha : a.KeepsNothing)
    {rest : α → Action β} {P : Memory → Prop} (h : ∀ x, (rest x).Establishes P) :
    (a.andThen rest).Establishes P := by
  refine ⟨ha.andThen fun x => (h x).keeps, fun s v s' hs => ?_⟩
  rcases hx : a s with ⟨x | e | _, t⟩
  · rw [Action.andThen_value hx] at hs; exact (h x).mem t v s' hs
  · rw [Action.andThen_raised hx] at hs; cases hs
  · rw [Action.andThen_hung hx] at hs; cases hs

theorem establishes_hoursEncode_andThen {β : Type} {hour : Hour} {rest : Byte → Action β}
    {P : Memory → Prop} (h : hourValid hour = true → (rest (hourByte hour)).Establishes P) :
    ((hoursEncode hour).andThen rest).Establishes P := by
  unfold hoursEncode
  cases hv : hourValid hour with
  | true => exact h hv
  | false => exact establishes_raise _ P

theorem establishes_memWrite (p : Payload) {P : Memory → Prop}
    (h : ∀ m : Memory, P (m.writeSpan p.addr p.data)) : (memWrite p).Establishes P := by
  refine ⟨keepsNothing_memWrite p, fun s v s' hs => ?_⟩
  cases ha : (s.turnAt 0).answer with
  | ok => rw [memWrite_ok p ha] at hs; cases hs; exact h _
  | fail e => rw [memWrite_fail p ha] at hs; cases hs
  | never => rw [memWrite_never p ha] at hs; cases hs

theorem establishes_writeReg (r : Reg) {x : Byte} {Q : Byte → Prop} (h : Q x) :
    (writeReg r x).Establishes fun m => Q (m.get r.addr) :=
  establishes_memWrite _ fun m => by
    rw [Memory.get_writeSpan]
    simpa [Reg.payload] using h

theorem Action.Establishes.done {a : Action Unit} {P : Memory → Prop} (h : a.Establishes P) :
    (Machine.done a).Establishes P := by
  refine ⟨h.keeps.done, fun s v s' hs => ?_⟩
  rcases hx : a s with ⟨x | e | _, t⟩
  · rw [done_value hx] at hs; cases hs; exact h.mem s x _ hx
  · rw [done_raised hx] at hs; cases hs
  · rw [done_hung hx] at hs; cases hs

/-- If the response delivered is a success value, the operation ended with that value, since its parts
deliver nothing. -/
theorem Action.Establishes.mem_of_delivered {a : Action Value} {P : Memory → Prop}
    (ha : a.Establishes P) {s t : State} {v : Value} (hexec : perform a s = .next t)
    (hd : delivered s t (.ok v)) : P t.mem := by
  obtain rfl : deliver (a s) = t := by simpa [perform] using hexec
  have hout : (a s).2.output = s.output := (ha.keeps s s ⟨rfl, rfl, rfl, rfl⟩).2.output_left
  rw [delivered, deliver_output, hout, List.append_cancel_left_eq] at hd
  rcases hx : a s with ⟨x | e | _, s'⟩
  · exact ha.mem s x s' hx
  · simp [hx, Ended.responses] at hd
  · simp [hx, Ended.responses] at hd

/-- A setter of one register that checks its operand and then writes one byte. -/
theorem get_of_regSetter_delivered {ok : Bool} (r : Reg) {x : Byte} (Q : Byte → Prop)
    (h : ok = true → Q x) {s t : State} {v : Value}
    (hexec : perform (done (require ok (writeReg r x))) s = .next t)
    (hd : delivered s t (.ok v)) : Q (t.mem.get r.addr) :=
  (establishes_require fun hok => establishes_writeReg r (h hok)).done.mem_of_delivered hexec hd

/-- Settles O60: a setter writes only after its check, and the checked byte or image satisfies its
clause. -/
theorem settersEstablishWF : Obligations.SettersEstablishWF := by
  intro i s t hexec hd
  refine ⟨?seconds, ?minutes, ?hours, ?weekday, ?day, ?month, ?year, ?dateTime⟩
  case seconds =>
    rintro v rfl
    exact (establishes_require fun hv => (keepsNothing_readReg .seconds).andThen_establishes fun r =>
      establishes_writeReg .seconds (wfSeconds_secondsByte r hv)).done.mem_of_delivered hexec hd
  case minutes =>
    rintro v rfl
    exact get_of_regSetter_delivered .minutes (packedBcd 0 59) packedBcd_of_sixtyOk hexec hd
  case hours =>
    rintro hour rfl
    exact (establishes_hoursEncode_andThen fun hv =>
      establishes_writeReg .hours (wfHours_hourByte hv)).done.mem_of_delivered hexec hd
  case weekday =>
    rintro v rfl
    exact get_of_regSetter_delivered .weekday wfWeekday wfWeekday_of_weekdayOk hexec hd
  case day =>
    rintro v rfl
    exact get_of_regSetter_delivered .day (packedBcd 1 31) packedBcd_of_dayOk hexec hd
  case month =>
    rintro v rfl
    exact get_of_regSetter_delivered .month (packedBcd 1 12) packedBcd_of_monthOk hexec hd
  case year =>
    rintro v rfl
    exact get_of_regSetter_delivered .year (packedBcd 0 99) packedBcd_of_yearOk hexec hd
  case dateTime =>
    rintro dt rfl
    exact (establishes_require fun hv => (keepsNothing_readReg .seconds).andThen_establishes fun r0 =>
      establishes_memWrite (dateTimePayload r0 dt) fun m =>
        wf_writeSpan_dtPayload m r0 hv).done.mem_of_delivered hexec hd

end Sys2Proof.Machine

namespace Sys2Proof.Machine

/-! ## The bus primitives and the timekeeper, register by register (R52, R53, R64) -/

theorem Memory.getElem?_readSpan (m : Memory) (a n k : Nat) (h : k < n) :
    (m.readSpan a n)[k]? = some (m.get (a + k)) := by
  have hk : k < (m.readSpan a n).length := by simpa using h
  rw [List.getElem?_eq_getElem hk, ← List.getD_eq_getElem _ 0 hk, Memory.getD_readSpan m a n k 0 h]

theorem Memory.get_writeSpan_add (m : Memory) (a k : Nat) {data : List Byte} (h : k < data.length) :
    some ((m.writeSpan a data).get (a + k)) = data[k]? := by
  rw [← Memory.getElem?_readSpan _ a data.length k h, Memory.readSpan_writeSpan]

theorem State.memAfterFailedWrite_unchanged {s : State} (p : Payload)
    (h : s.params.writeFailEffect = .unchanged) : s.memAfterFailedWrite p = s.busMem 0 := by
  simp [State.memAfterFailedWrite, h]

/-- Settles O45: the bytes that an answered read delivers are the timekeeper's registers, and neither
outcome writes the register space. -/
theorem memReadContract : Obligations.MemReadContract := by
  refine fun sp s => ⟨fun hok => ?_, fun e hfail => ?_⟩
  · exact ⟨_, _, memRead_ok sp hok, Memory.length_readSpan _ _ _,
      fun k hk => Memory.getElem?_readSpan _ _ _ k hk, rfl, rfl⟩
  · exact ⟨_, memRead_fail sp hfail, rfl, rfl⟩

/-- Settles O46: an answered write leaves `writeSpan` of the payload; a failed one leaves what
`WRITE_FAIL_EFFECT` says, which stays inside the span. -/
theorem memWriteContract : Obligations.MemWriteContract := by
  refine fun p s => ⟨fun hok => ?_, fun e hfail => ?_⟩
  · exact ⟨_, memWrite_ok p hok, fun k hk => Memory.get_writeSpan_add _ _ k hk,
      fun x hx => Memory.get_writeSpan_outside _ (by omega), rfl⟩
  · obtain ⟨houtside, -⟩ := s.memAfterFailedWrite_spec p
    exact ⟨_, memWrite_fail p hfail, fun x hx => houtside x (by omega),
      State.memAfterFailedWrite_unchanged p, rfl⟩

/-- Below the halt bit, register 0x00 takes the tick's seconds. -/
theorem haltBit_or_setWidth_and_7F (r sec : Byte) :
    ((r &&& 0x80) ||| (sec.setWidth 7).setWidth 8) &&& 0x7F = sec &&& 0x7F := by
  have hsec : ((sec.setWidth 7).setWidth 8).toNat = sec.toNat % 128 := by
    simp only [BitVec.toNat_setWidth]; omega
  apply BitVec.eq_of_toNat_eq
  rw [toNat_and_7F, toNat_haltBit_or _ _ (by omega), hsec, toNat_and_7F]
  omega

/-- Registers 0x01 to 0x06 take the tick's values (R64). -/
theorem Memory.readSpan_tick_free (m : Memory) (t : Tick) :
    (m.tick .free (some t)).readSpan 0x01 6 =
      [t.minutes, t.hours, t.weekday, t.day, t.month, t.year] :=
  Memory.readSpan_writeSpan (m.set 0x00 _) 0x01
    [t.minutes, t.hours, t.weekday, t.day, t.month, t.year]

/-- Register 0x00 keeps its halt bit and takes the tick's seconds (R64). -/
theorem Memory.get_zero_tick_free (m : Memory) (t : Tick) :
    (m.tick .free (some t)).get 0x00 = (m.get 0x00 &&& 0x80) ||| t.seconds.setWidth 8 := by
  simp [Memory.tick, Memory.get_writeSpan]

/-- Settles O47: every value of the time registers below the halt bit is some tick's, and no tick
touches more. -/
theorem timekeeperIsConfined : Obligations.TimekeeperIsConfined := by
  refine ⟨Memory.tick_frozen, fun m t => timekeeperKeeps_tick m .free t, ?_⟩
  intro m sec b1 b2 b3 b4 b5 b6
  refine ⟨⟨sec.setWidth 7, b1, b2, b3, b4, b5, b6⟩, Memory.readSpan_tick_free m _, ?_⟩
  rw [Memory.get_zero_tick_free]
  exact haltBit_or_setWidth_and_7F _ sec

end Sys2Proof.Machine

namespace Sys2Proof

/-! ## Frames and their operands (R81 to R91) -/

theorem toNat_eq_lowByte_highByte (v : Half) : v.toNat = (lowByte v).toNat + 256 * (highByte v).toNat := by
  rw [lowByte_toNat, highByte_toNat]; omega

theorem Instr.wellFormed_writeRam_iff {offset : Byte} {d : List Byte} :
    (Instr.writeRam offset d).wellFormed = true ↔ d.length ≤ 255 := decide_eq_true_iff

section

variable {op : Byte} {n : Nat} {i : Instr} {bytes rest : List Byte}

/-! ### Each format reads back what the encoder writes -/

theorem formatLevel_levelCode (mk : Level → Instr) (level : Level) (rest : List Byte) :
    formatLevel mk (levelCode level :: rest) = .ok (mk level, rest) := by
  simp [formatLevel]

theorem formatRate_rateCode (mk : Rate → Instr) (rate : Rate) (rest : List Byte) :
    formatRate mk (rateCode rate :: rest) = .ok (mk rate, rest) := by
  simp [formatRate]

theorem formatW_halfBytes (mk : Half → Instr) (v : Half) (rest : List Byte) :
    formatW mk (halfBytes v ++ rest) = .ok (mk v, rest) := by
  simp [formatW, halfBytes]

theorem formatH_hourBytes (mk : Hour → Instr) (hour : Hour) (rest : List Byte) :
    formatH mk (hourBytes hour ++ rest) = .ok (mk hour, rest) := by
  simp [formatH, hourBytes]

theorem formatT_dateTimeBytes (mk : DateTime → Instr) (dt : DateTime) (rest : List Byte) :
    formatT mk (dateTimeBytes dt ++ rest) = .ok (mk dt, rest) := by
  simp [formatT, dateTimeBytes, halfBytes, hourBytes]

/-! ### What an opcode and a format read is a frame -/

/-- If an opcode's operand bytes are the operand bytes of its instruction, the opcode and those bytes are
that instruction's frame. -/
theorem frame_of_operands {α : Type} {mk : α → Instr} (operands : α → List Byte) (hop : op.toNat = n)
    (hmk : ∀ a, (mk a).wellFormed = true ∧ encode (mk a) = BitVec.ofNat 8 n :: operands a)
    (h : ∃ a, bytes = operands a ++ rest ∧ i = mk a) :
    i.wellFormed = true ∧ op :: bytes = encode i ++ rest := by
  obtain ⟨a, rfl, rfl⟩ := h
  obtain ⟨hwf, henc⟩ := hmk a
  exact ⟨hwf, by simp [henc, ← hop]⟩

/-- An opcode without operands is a frame by itself (R82). -/
theorem frame_of_formatZ {j : Instr} (hop : op.toNat = n)
    (hj : j.wellFormed = true ∧ encode j = [BitVec.ofNat 8 n]) (h : formatZ j bytes = .ok (i, rest)) :
    i.wellFormed = true ∧ op :: bytes = encode i ++ rest := by
  cases h
  exact frame_of_operands (mk := fun _ : Unit => i) (fun _ => []) hop (fun _ => hj) ⟨(), rfl, rfl⟩

/-- Format M spells a buffer of at most 255 bytes (R87). -/
theorem frame_of_formatM (hop : op.toNat = 0x51) (h : formatM .writeRam bytes = .ok (i, rest)) :
    i.wellFormed = true ∧ op :: bytes = encode i ++ rest := by
  obtain ⟨offset, d, rfl, hd, rfl⟩ := formatM_eq_ok h
  obtain rfl : op = 0x51 := BitVec.eq_of_toNat_eq hop
  exact ⟨Instr.wellFormed_writeRam_iff.mpr hd, rfl⟩

/-! ### Bytes that are too few for their format -/

theorem formatW_short {mk : Half → Instr} (h : bytes.length < 2) :
    formatW mk bytes = .error .shortFrame := by
  unfold formatW
  split
  · simp at h
  · rfl

theorem formatH_short {mk : Hour → Instr} (h : bytes.length < 2) :
    formatH mk bytes = .error .shortFrame := by
  unfold formatH
  split
  · simp at h
  · rfl

theorem formatT_short {mk : DateTime → Instr} (h : bytes.length < 9) :
    formatT mk bytes = .error .shortFrame := by
  unfold formatT
  split
  · simp only [List.length_cons] at h; omega
  · rfl

theorem formatR_short {mk : Byte → Byte → Instr} (h : bytes.length < 2) :
    formatR mk bytes = .error .shortFrame := by
  unfold formatR
  split
  · simp at h
  · rfl

/-- A frame cut short behind its opcode lacks operand bytes. -/
theorem length_take_lt {k : Nat} (hk : k + 1 < (op :: bytes).length) :
    (bytes.take k).length < bytes.length := by
  rw [List.length_cons] at hk
  rw [List.length_take]
  omega

/-- Format M is cut short inside its offset and length or inside its data. -/
theorem formatM_take_short (mk : Byte → List Byte → Instr) (offset : Byte) {d : List Byte} {k : Nat}
    (hd : d.length ≤ 255) (hk : k < d.length + 2) :
    formatM mk ((offset :: BitVec.ofNat 8 d.length :: d).take k) = .error .shortFrame := by
  match k with
  | 0 => rfl
  | 1 => rfl
  | k + 2 =>
    exact if_neg (by rw [BitVec.toNat_ofNat, List.length_take]; omega)

/-! ### Reserved codes (R90) -/

theorem formatH_reserved {mk : Hour → Instr} {tag : Byte} (h : Byte) (rest : List Byte)
    (ht : 3 ≤ tag.toNat) : formatH mk (tag :: h :: rest) = .error (.reservedHourTag tag) := by
  simp [formatH, hourOfTag_eq_none ht]

theorem formatT_reserved {mk : DateTime → Instr} {tag : Byte} (lo hi mo d w h mi se : Byte)
    (rest : List Byte) (ht : 3 ≤ tag.toNat) :
    formatT mk (lo :: hi :: mo :: d :: w :: tag :: h :: mi :: se :: rest) =
      .error (.reservedHourTag tag) := by
  simp [formatT, hourOfTag_eq_none ht]

theorem formatLevel_reserved {mk : Level → Instr} {v : Byte} (rest : List Byte) (hv : 2 ≤ v.toNat) :
    formatLevel mk (v :: rest) = .error (.reservedLevelCode v) := by
  simp [formatLevel, levelOfCode_eq_none hv]

theorem formatRate_reserved {mk : Rate → Instr} {v : Byte} (rest : List Byte) (hv : 4 ≤ v.toNat) :
    formatRate mk (v :: rest) = .error (.reservedRateCode v) := by
  simp [formatRate, rateOfCode_eq_none hv]

/-- Outside the opcode map no format is tried (R89, R90). -/
theorem decodeFrame_reservedOpcode (rest : List Byte)
    (h : (0x04 ≤ op.toNat ∧ op.toNat ≤ 0x0F) ∨ (0x18 ≤ op.toNat ∧ op.toNat ≤ 0x1F) ∨
      (0x28 ≤ op.toNat ∧ op.toNat ≤ 0x2F) ∨ (0x33 ≤ op.toNat ∧ op.toNat ≤ 0x3F) ∨
      (0x47 ≤ op.toNat ∧ op.toNat ≤ 0x4F) ∨ 0x52 ≤ op.toNat) :
    decodeFrame (op :: rest) = .error (.reservedOpcode op) := by
  simp only [decodeFrame]
  split
  case h_33 => rfl
  all_goals omega

end

/-! ## The decoder and the encoder -/

/-- Settles O52: the decoder of the opcode is the format of the encoder's operand bytes. -/
theorem decodeOfEncode : Obligations.DecodeOfEncode := by
  intro i hwf rest
  cases i
  case encodeHours hour | setHours hour => exact formatH_hourBytes _ hour rest
  case setYear v => exact formatW_halfBytes _ v rest
  case setDatetime dt => exact formatT_dateTimeBytes _ dt rest
  case setSquareWaveOutputLevel level => exact formatLevel_levelCode _ level rest
  case setSquareWaveOutputRate rate => exact formatRate_rateCode _ rate rest
  case writeRam offset d => exact formatM_data _ offset (Instr.wellFormed_writeRam_iff.mp hwf) rest
  all_goals rfl

/-- Settles O53: each opcode's format reads the operand bytes that the encoder puts behind that opcode. -/
theorem encodeOfDecode : Obligations.EncodeOfDecode := by
  intro bytes i rest h
  unfold decodeFrame at h
  split at h
  · cases h
  split at h
  · exact frame_of_operands (fun v => [v]) ‹_› (fun _ => ⟨rfl, rfl⟩) (formatB_eq_ok h)
  · exact frame_of_operands (fun v => [v]) ‹_› (fun _ => ⟨rfl, rfl⟩) (formatB_eq_ok h)
  · exact frame_of_operands (fun v => [v]) ‹_› (fun _ => ⟨rfl, rfl⟩) (formatB_eq_ok h)
  · exact frame_of_operands hourBytes ‹_› (fun _ => ⟨rfl, rfl⟩) (formatH_eq_ok h)
  iterate 8 exact frame_of_formatZ ‹_› ⟨rfl, rfl⟩ h
  · exact frame_of_operands (fun v => [v]) ‹_› (fun _ => ⟨rfl, rfl⟩) (formatB_eq_ok h)
  · exact frame_of_operands (fun v => [v]) ‹_› (fun _ => ⟨rfl, rfl⟩) (formatB_eq_ok h)
  · exact frame_of_operands hourBytes ‹_› (fun _ => ⟨rfl, rfl⟩) (formatH_eq_ok h)
  · exact frame_of_operands (fun v => [v]) ‹_› (fun _ => ⟨rfl, rfl⟩) (formatB_eq_ok h)
  · exact frame_of_operands (fun v => [v]) ‹_› (fun _ => ⟨rfl, rfl⟩) (formatB_eq_ok h)
  · exact frame_of_operands (fun v => [v]) ‹_› (fun _ => ⟨rfl, rfl⟩) (formatB_eq_ok h)
  · exact frame_of_operands halfBytes ‹_› (fun _ => ⟨rfl, rfl⟩) (formatW_eq_ok h)
  · exact frame_of_operands dateTimeBytes ‹_› (fun _ => ⟨rfl, rfl⟩) (formatT_eq_ok h)
  iterate 7 exact frame_of_formatZ ‹_› ⟨rfl, rfl⟩ h
  · exact frame_of_operands (fun l => [levelCode l]) ‹_› (fun _ => ⟨rfl, rfl⟩) (formatLevel_eq_ok h)
  · exact frame_of_formatZ ‹_› ⟨rfl, rfl⟩ h
  · exact frame_of_operands (fun r => [rateCode r]) ‹_› (fun _ => ⟨rfl, rfl⟩) (formatRate_eq_ok h)
  · obtain ⟨offset, n, hbytes, hi⟩ := formatR_eq_ok h
    exact frame_of_operands (mk := .readRam offset) (fun n => [offset, n]) ‹_› (fun _ => ⟨rfl, rfl⟩)
      ⟨n, hbytes, hi⟩
  · exact frame_of_formatM ‹_› h
  · cases h

/-- A frame cut short is refused as short: behind the opcode, its format lacks operand bytes (R90). -/
theorem decodeFrame_take_encode {i : Instr} (hwf : i.wellFormed = true) {k : Nat}
    (hk : k < (encode i).length) : decodeFrame ((encode i).take k) = .error .shortFrame := by
  match k with
  | 0 => rfl
  | k + 1 =>
    cases i
    case decodeBcd | encodeBcd | decodeHours | setSeconds | setMinutes | setWeekday | setDay
        | setMonth | setSquareWaveOutputLevel | setSquareWaveOutputRate =>
      obtain rfl : k = 0 := by simpa [encode] using hk
      rfl
    case encodeHours | setHours => exact formatH_short (length_take_lt hk)
    case setYear => exact formatW_short (length_take_lt hk)
    case setDatetime => exact formatT_short (length_take_lt hk)
    case readRam => exact formatR_short (length_take_lt hk)
    case writeRam offset d =>
      exact formatM_take_short _ offset (Instr.wellFormed_writeRam_iff.mp hwf)
        (Nat.lt_of_succ_lt_succ hk)
    all_goals simp [encode] at hk

/-- Settles O51: each frame evaluates. -/
theorem sampleFramesDecode : Obligations.SampleFramesDecode := by
  unfold Obligations.SampleFramesDecode
  decide

end Sys2Proof

namespace Sys2Proof.Machine

/-! ## What an idle port offers, and the step -/

section

variable {s : State}

theorem offer_of_decodeFrame_ok {i : Instr} {rest : List Byte} (hport : s.port = .idle)
    (hdec : decodeFrame s.input = .ok (i, rest)) : offer s = .command i rest := by
  unfold offer
  rw [hport]
  cases hin : s.input with
  | nil => rw [hin] at hdec; cases hdec
  | cons b bs => rw [hin] at hdec; simp [hdec]

theorem offer_of_decodeFrame_error {e : DecodeError} (hport : s.port = .idle) (hin : s.input ≠ [])
    (hdec : decodeFrame s.input = .error e) : offer s = .reserved e := by
  unfold offer
  rw [hport]
  cases hbs : s.input with
  | nil => exact absurd hbs hin
  | cons b bs => rw [hbs] at hdec; simp [hdec]

theorem step_of_command {i : Instr} {rest : List Byte} (h : offer s = .command i rest) :
    step s = exec i (s.accept rest) := by
  simp [step, h]

theorem step_of_reserved {e : DecodeError} (h : offer s = .reserved e) :
    step s = .refused (.reservedEncoding e) := by
  simp [step, h]

end

/-- Settles O48: the idle port offers the decoded command. -/
theorem stepRunsTheDecodedInstruction : Obligations.StepRunsTheDecodedInstruction :=
  fun _ _ _ hport hdec => step_of_command (offer_of_decodeFrame_ok hport hdec)

/-- Settles O50: outside the opcode map nothing is read, inside it each format names its reserved code or
its missing bytes, and the idle port offers the refusal. -/
theorem reservedFramesAreRefused : Obligations.ReservedFramesAreRefused := by
  refine ⟨fun _ rest => decodeFrame_reservedOpcode rest, ?_, ?_, ?_, ?_, ?_, ?_⟩
  · exact fun _ h rest ht => ⟨formatH_reserved h rest ht, formatH_reserved h rest ht⟩
  · exact fun lo hi mo d w _ h mi se rest ht => formatT_reserved lo hi mo d w h mi se rest ht
  · exact fun _ rest hv => formatLevel_reserved rest hv
  · exact fun _ rest hv => formatRate_reserved rest hv
  · exact fun _ hwf _ hk => decodeFrame_take_encode hwf hk
  · exact fun _ _ hport hin hdec => step_of_reserved (offer_of_decodeFrame_error hport hin hdec)

/-! ## Response frames and the text form -/

/-- Settles O54: the two bytes of a year are its low and high byte. -/
theorem responseFrames : Obligations.ResponseFrames := by
  refine ⟨rfl, rfl, rfl, fun _ => rfl, ?_, fun _ => ⟨rfl, rfl, rfl⟩, ?_, rfl, rfl, fun _ => rfl,
    fun _ => rfl, rfl, fun _ => ⟨_, rfl⟩⟩
  · exact fun v => ⟨lowByte v, highByte v, rfl, toNat_eq_lowByte_highByte v⟩
  · exact fun dt => ⟨lowByte dt.year, highByte dt.year, _, _, rfl, toNat_eq_lowByte_highByte dt.year, rfl⟩

/-- Settles O55: each line evaluates. -/
theorem sampleLinesAssemble : Obligations.SampleLinesAssemble := by
  unfold Obligations.SampleLinesAssemble
  decide

end Sys2Proof.Machine

namespace Sys2Proof.Machine

/-! ## The BCD codec (R110 to R112) -/

/-- A well-formed instruction is spelled by its encoding. -/
theorem spelledBy_encode {i : Instr} (hwf : i.wellFormed = true) : SpelledBy i (encode i) :=
  ⟨rfl, decodeOfEncode i hwf⟩

theorem Completes.response_unique {i : Instr} {s : State} {m n : Nat} {es fs : List BusEvent}
    {r r' : Response} {P Q : Memory → Prop} (h : Completes i s m es r P) (h' : Completes i s n fs r' Q) :
    r = r' := by
  obtain ⟨t, ht, hout, _⟩ := h
  obtain ⟨t', ht', hout', _⟩ := h'
  obtain rfl : t = t' := Host.Outcome.next.inj (ht.symm.trans ht')
  simpa using hout.symm.trans hout'

theorem Answers.value_unique {i : Instr} {v w : Value} (h : Answers i v) (h' : Answers i w) : v = w :=
  Response.ok.inj ((h State.reset).response_unique (h' State.reset))

theorem answers_decodeBcd (b : Byte) : Answers (.decodeBcd b) (.u8 (bcdDecode b)) :=
  answers_of fun _ => rfl

theorem answers_encodeBcd (d : Byte) : Answers (.encodeBcd d) (.u8 (bcdEncode d)) :=
  answers_of fun _ => rfl

theorem eq_bcdEncode_of_answers {d x : Byte} (h : Answers (.encodeBcd d) (.u8 x)) : x = bcdEncode d :=
  Value.u8.inj (h.value_unique (answers_encodeBcd d))

/-- Settles O1: the answer is `bcdDecode`, whose number is the formula for every byte. -/
theorem decodeGivesTensAndUnits : Obligations.DecodeGivesTensAndUnits := fun b =>
  ⟨spelledBy_encode rfl, bcdDecode b, (bcdDecode_toNat b).trans (bcdValue_eq b), answers_decodeBcd b⟩

/-- Settles O2: the answer is `bcdEncode`, whose number is the formula modulo 256. -/
theorem encodePacksTensAndUnits : Obligations.EncodePacksTensAndUnits := fun d =>
  ⟨spelledBy_encode rfl, bcdEncode d, bcdEncode_toNat d, answers_encodeBcd d⟩

/-- R112 (a) and (c), as the operations answer. -/
theorem encodeBcd_then_decodeBcd {d : Byte} (h : d.toNat ≤ 99) :
    ∃ x, Answers (.encodeBcd d) (.u8 x) ∧ Answers (.decodeBcd x) (.u8 d) ∧
      x.toNat / 16 ≤ 9 ∧ x.toNat % 16 ≤ 9 := by
  obtain ⟨hhigh, hlow, -⟩ := packedBcd_bcdEncode h d.toNat.zero_le h
  rw [highNibble_eq] at hhigh
  rw [lowNibble_eq] at hlow
  have hback := answers_decodeBcd (bcdEncode d)
  rw [bcdDecode_bcdEncode h] at hback
  exact ⟨bcdEncode d, answers_encodeBcd d, hback, hhigh, hlow⟩

/-- R112 (b), as the operations answer. -/
theorem decodeBcd_then_encodeBcd {b : Byte} (hhigh : b.toNat / 16 ≤ 9) (hlow : b.toNat % 16 ≤ 9) :
    ∃ d : Byte, d.toNat ≤ 99 ∧ Answers (.decodeBcd b) (.u8 d) ∧ Answers (.encodeBcd d) (.u8 b) := by
  have hle : (bcdDecode b).toNat ≤ 99 := by rw [bcdDecode_toNat, bcdValue_eq]; omega
  have hback := answers_encodeBcd (bcdDecode b)
  rw [bcdEncode_bcdDecode (by rwa [highNibble_eq]) (by rwa [lowNibble_eq])] at hback
  exact ⟨bcdDecode b, hle, answers_decodeBcd b, hback⟩

/-- R112 (d): up to 79 the tens digit is at most 7, so bit 7 is clear. -/
theorem bcdEncode_toNat_lt_128 {d : Byte} (h : d.toNat ≤ 79) : (bcdEncode d).toNat < 128 := by
  rw [bcdEncode_toNat_of_le (by omega)]; omega

/-- Settles O3: each law of R112 for the operations; for bit 7, the answer of `encode` is determined. -/
theorem codecRoundTrips : Obligations.CodecRoundTrips :=
  ⟨fun _ => encodeBcd_then_decodeBcd, fun _ => decodeBcd_then_encodeBcd, fun _ _ hd hx =>
    eq_bcdEncode_of_answers hx ▸ bcdEncode_toNat_lt_128 hd⟩

end Sys2Proof.Machine

namespace Sys2Proof.Machine

/-! ## The hour codec as operations (R120 to R122) -/

theorem answers_decodeHours (b : Byte) : Answers (.decodeHours b) (.hour (hoursDecode b)) :=
  answers_of fun _ => rfl

/-- Settles O4: the answer is `hoursDecode`, which follows bits 6 and 5 for every byte. -/
theorem decodeHoursByModeBits : Obligations.DecodeHoursByModeBits := fun b =>
  ⟨spelledBy_encode rfl, hoursDecode b, decodesHour_hoursDecode b, answers_decodeHours b⟩

section

variable {hour : Hour} {b x : Byte}

theorem hoursDecode_hourByte_of_validHour (h : validHour hour) : hoursDecode (hourByte hour) = hour :=
  hoursDecode_hourByte ((hourValid_iff hour).mpr h)

theorem decodesHour_hourByte (h : validHour hour) : decodesHour (hourByte hour) hour := by
  have hd := decodesHour_hoursDecode (hourByte hour)
  rwa [hoursDecode_hourByte_of_validHour h] at hd

theorem hoursEncode_of_valid (h : validHour hour) : hoursEncode hour = ret (hourByte hour) := by
  rw [hoursEncode, (hourValid_iff hour).mpr h, require_true]

theorem hoursEncode_of_not_valid (h : ¬ validHour hour) :
    hoursEncode hour = raise .invalidInputData := by
  rw [hoursEncode, Bool.eq_false_of_not_eq_true (mt (hourValid_iff hour).mp h), require_false]

theorem exec_encodeHours (hour : Hour) (s : State) :
    exec (.encodeHours hour) s = perform ((hoursEncode hour).andThen fun b => ret (.u8 b)) s := rfl

theorem answers_encodeHours (h : validHour hour) :
    Answers (.encodeHours hour) (.u8 (hourByte hour)) :=
  answers_of fun s => by rw [exec_encodeHours, hoursEncode_of_valid h, Action.ret_andThen]

theorem rejects_encodeHours (h : ¬ validHour hour) : Rejects (.encodeHours hour) :=
  rejects_of fun s => by rw [exec_encodeHours, hoursEncode_of_not_valid h]; rfl

theorem Rejects.not_answers {i : Instr} (h : Rejects i) (v : Value) : ¬ Answers i v := fun ha =>
  nomatch (h State.reset).response_unique (ha State.reset)

theorem answers_encodeHours_iff :
    Answers (.encodeHours hour) (.u8 x) ↔ validHour hour ∧ hourByte hour = x := by
  constructor
  · intro ha
    have hv : validHour hour := by
      by_contra hv
      exact (rejects_encodeHours hv).not_answers _ ha
    exact ⟨hv, Value.u8.inj ((answers_encodeHours hv).value_unique ha)⟩
  · rintro ⟨hv, rfl⟩
    exact answers_encodeHours hv

theorem encodesHour.byte_unique {y : Byte} (h : encodesHour hour x) (h' : encodesHour hour y) :
    x = y := by
  cases hour <;> exact BitVec.eq_of_toNat_eq (Eq.trans h (Eq.symm h'))

theorem encodesHour.hourImage (h : encodesHour hour x) (hv : validHour hour) : hourImage x := by
  cases hour <;> simp only [validHour, encodesHour, Machine.hourImage] at * <;> omega

/-- On the 48 bytes, mode bits and digits are those of a valid hour (R122, the converse). -/
theorem hourImage.valid_and_encodesHour (h : hourImage b) (hd : decodesHour b hour) :
    validHour hour ∧ encodesHour hour b := by
  obtain ⟨hunits, hrange⟩ := h
  cases hour <;> simp only [decodesHour, validHour, encodesHour] at * <;> omega

theorem hourImage_hourByte (h : validHour hour) : hourImage (hourByte hour) :=
  (encodesHour_hourByte h).hourImage h

/-- The image is where decoding gives a valid hour that encodes to the same byte (R122). -/
theorem hourImage_iff :
    hourImage b ↔ validHour (hoursDecode b) ∧ hourByte (hoursDecode b) = b := by
  constructor
  · intro h
    obtain ⟨hv, he⟩ := h.valid_and_encodesHour (decodesHour_hoursDecode b)
    exact ⟨hv, (encodesHour_hourByte hv).byte_unique he⟩
  · rintro ⟨hv, he⟩
    exact he ▸ hourImage_hourByte hv

end

/-- Settles O5: valid hours answer their byte, the others are rejected; a byte of the image is the answer for
the hour it decodes to. -/
theorem encodeHoursChecksAndEncodes : Obligations.EncodeHoursChecksAndEncodes := by
  refine ⟨fun h => ⟨spelledBy_encode rfl, spelledBy_encode rfl, spelledBy_encode rfl⟩,
    fun hour hv => ⟨_, encodesHour_hourByte hv, answers_encodeHours hv⟩,
    fun hour => rejects_encodeHours, fun x => ⟨?_, fun hx => ?_⟩⟩
  · rintro ⟨hour, ha⟩
    obtain ⟨hv, rfl⟩ := answers_encodeHours_iff.mp ha
    exact hourImage_hourByte hv
  · exact ⟨hoursDecode x, answers_encodeHours_iff.mpr (hourImage_iff.mp hx)⟩

/-- Settles O6: `hoursDecode` undoes `hourByte` on the valid hours, and is undone by it on the image only. -/
theorem hoursRoundTrip : Obligations.HoursRoundTrip := by
  refine ⟨fun hour hv => ⟨hourByte hour, answers_encodeHours hv, ?_⟩,
    fun b hb => ⟨hoursDecode b, answers_decodeHours b, answers_encodeHours_iff.mpr (hourImage_iff.mp hb)⟩,
    fun b hb => ⟨hoursDecode b, answers_decodeHours b, ?_⟩⟩
  · have hback := answers_decodeHours (hourByte hour)
    rwa [hoursDecode_hourByte_of_validHour hv] at hback
  · by_cases hv : validHour (hoursDecode b)
    · exact .inr ⟨_, fun he => hb (hourImage_iff.mpr ⟨hv, he⟩), answers_encodeHours hv⟩
    · exact .inl (rejects_encodeHours hv)

end Sys2Proof.Machine

namespace Sys2Proof.Machine

/-! ## The hour mode (R123) -/

/-- An operation that writes one whole register without reading it. -/
theorem writesOnly_of_writeReg {i : Instr} (r : Reg) (x : Byte)
    (h : ∀ s, exec i s = perform (done (writeReg r x)) s) : WritesOnly i r.addr [x] :=
  writesOnly_of (r.payload x) h

theorem exec_setHours (hour : Hour) (s : State) :
    exec (.setHours hour) s =
      perform (done ((hoursEncode hour).andThen fun b => writeReg .hours b)) s := rfl

theorem writesOnly_setHours {hour : Hour} (h : validHour hour) :
    WritesOnly (.setHours hour) 0x02 [hourByte hour] :=
  writesOnly_of_writeReg .hours _ fun s => by
    rw [exec_setHours, hoursEncode_of_valid h, Action.ret_andThen]

theorem queries_getHours : Queries .getHours 0x02 fun r => .hour (hoursDecode r) :=
  queries_of .hours fun _ => rfl

theorem decodesHour.mode_iff {b : Byte} {hour : Hour} (h : decodesHour b hour) :
    b.toNat / 64 % 2 = 0 ↔ ∃ h, hour = .h24 h := by
  cases hour with
  | h24 h' => exact ⟨fun _ => ⟨h', rfl⟩, fun _ => h.1⟩
  | am h' => exact ⟨fun h0 => absurd (h0.symm.trans h.1) (by decide), nofun⟩
  | pm h' => exact ⟨fun h0 => absurd (h0.symm.trans h.1) (by decide), nofun⟩

/-- The query after an answered write of the register it reads, under a frozen timekeeper, finds the byte
written. -/
theorem WritesOnly.then_queries {i j : Instr} {a : Nat} {x : Byte} {f : Byte → Value}
    (hw : WritesOnly i a [x]) (hq : Queries j a f) {s : State} (hfrozen : s.params.timekeeper = .frozen)
    (h0 : (s.turnAt 0).answer = .ok) (h1 : (s.turnAt 1).answer = .ok) :
    ∃ t u, exec i s = .next t ∧ exec j t = .next u ∧
      u.output = s.output ++ [.ok .unit, .ok (f x)] := by
  obtain ⟨t, hexec, hout, -, hmem, hparams, -, -, hturns, hdraws⟩ := (hw s).1 h0
  have hbyte : x = (t.busMem 0).get a := by
    rw [State.busMem_frozen t (hparams ▸ hfrozen), hmem a]
    simp
  have hanswer : (t.turnAt 0).answer = .ok := by rwa [State.turnAt_of_drop hturns hdraws]
  obtain ⟨u, hexec', hout', -⟩ := (hq t).1 hanswer x hbyte
  exact ⟨t, u, hexec, hexec', by simp [hout', hout]⟩

theorem agreeOff_zero_iff {x y : Byte} : AgreeOff 0x00 x y ↔ x = y := by
  have hmask : ~~~(0x00 : Byte) = BitVec.allOnes 8 := rfl
  rw [AgreeOff, hmask, BitVec.and_allOnes, BitVec.and_allOnes]

/-- Under a frozen timekeeper a register that the operation's rule does not name keeps its byte (R34). -/
theorem get_eq_of_not_mayWrite {i : Instr} {s t : State} (hexec : exec i s = .next t)
    (hfrozen : s.params.timekeeper = .frozen) {a : Nat} (ha : ¬ i.mayWrite a) :
    t.mem.get a = s.mem.get a := by
  have h := (ran_of_exec hexec).agreeOff_of_not_mayWrite ha
  rw [hfrozen] at h
  exact agreeOff_zero_iff.mp h

theorem eq_setHours_or_setDatetime_of_mayWrite {i : Instr} (h : i.mayWrite 0x02) :
    (∃ hour, i = .setHours hour) ∨ ∃ dt, i = .setDatetime dt := by
  cases i with
  | setHours hour => exact .inl ⟨hour, rfl⟩
  | setDatetime dt => exact .inr ⟨dt, rfl⟩
  | writeRam offset d => obtain ⟨hbase, -⟩ := h; omega
  | _ => simp [Instr.mayWrite] at h

/-- Settles O44: the byte written decodes to the hour set, so bit 6 tells its variant; the next read finds
that byte, which no other operation may write. -/
theorem hourModeIsTheWrittenVariant : Obligations.HourModeIsTheWrittenVariant := by
  refine ⟨fun hour hv => ⟨_, writesOnly_setHours hv, (decodesHour_hourByte hv).mode_iff⟩,
    ⟨hoursDecode, queries_getHours, fun r => (decodesHour_hoursDecode r).mode_iff⟩, ?readBack, ?frame⟩
  case readBack =>
    intro s hour hv hfrozen h0 h1
    have hback := (writesOnly_setHours hv).then_queries queries_getHours hfrozen h0 h1
    rwa [hoursDecode_hourByte_of_validHour hv] at hback
  case frame =>
    intro i s t hexec hfrozen hhours hdatetime
    refine get_eq_of_not_mayWrite hexec hfrozen fun hmay => ?_
    rcases eq_setHours_or_setDatetime_of_mayWrite hmay with ⟨hour, hi⟩ | ⟨dt, hi⟩
    · exact hhours hour hi
    · exact hdatetime dt hi

end Sys2Proof.Machine

namespace Sys2Proof.Machine

/-! ## Field getters (R132 to R144) -/

theorem queries_getSeconds : Queries .getSeconds 0x00 fun r => .u8 (bcdDecode (r &&& 0x7F)) :=
  queries_of .seconds fun _ => rfl

theorem queries_getMinutes : Queries .getMinutes 0x01 fun r => .u8 (bcdDecode r) :=
  queries_of .minutes fun _ => rfl

theorem queries_getWeekday : Queries .getWeekday 0x03 fun r => .u8 r :=
  queries_of .weekday fun _ => rfl

theorem queries_getDay : Queries .getDay 0x04 fun r => .u8 (bcdDecode r) :=
  queries_of .day fun _ => rfl

theorem queries_getMonth : Queries .getMonth 0x05 fun r => .u8 (bcdDecode r) :=
  queries_of .month fun _ => rfl

theorem queries_getYear : Queries .getYear 0x06 fun r => .u16 (yearDecode r) :=
  queries_of .year fun _ => rfl

/-- Settles O7: the answer is `bcdDecode` of the byte with bit 7 masked off. -/
theorem getSecondsStripsHaltBit : Obligations.GetSecondsStripsHaltBit :=
  ⟨spelledBy_encode rfl, _, queries_getSeconds, bcdDecode_and_7F⟩

/-- Settles O8: the three queries answer the same function `bcdDecode` of their byte. -/
theorem getMinutesDayMonthDecodeTheirRegister : Obligations.GetMinutesDayMonthDecodeTheirRegister :=
  ⟨spelledBy_encode rfl, spelledBy_encode rfl, spelledBy_encode rfl, bcdDecode, queries_getMinutes,
    queries_getDay, queries_getMonth, bcdDecode_eq⟩

/-- Settles O9: the answer is `hoursDecode`, which follows bits 6 and 5 for every byte. -/
theorem getHoursFollowsModeBit : Obligations.GetHoursFollowsModeBit :=
  ⟨spelledBy_encode rfl, hoursDecode, queries_getHours, decodesHour_hoursDecode⟩

/-- Settles O10: the query answers the byte itself. -/
theorem getWeekdayReturnsTheByte : Obligations.GetWeekdayReturnsTheByte :=
  ⟨spelledBy_encode rfl, queries_getWeekday⟩

/-- Settles O11: the answer is `yearDecode`, which 16 bits hold for every byte. -/
theorem getYearAddsBase : Obligations.GetYearAddsBase :=
  ⟨spelledBy_encode rfl, yearDecode, queries_getYear, yearDecode_eq⟩

end Sys2Proof.Machine

namespace Sys2Proof.Machine

/-! ## Field setters (R131, R133 to R145) -/

section

variable {i : Instr} {ok : Bool}

/-- A setter whose operand fails its check is rejected before any transaction (R131). -/
theorem rejects_of_setter {a : Action Unit} (h : ∀ s, exec i s = perform (done (require ok a)) s)
    (hok : ok = false) : Rejects i := by
  subst hok
  exact rejects_of h

/-- A setter whose operand passes its check writes its whole register, and reads nothing. -/
theorem writesOnly_of_setter (r : Reg) {x : Byte}
    (h : ∀ s, exec i s = perform (done (require ok (writeReg r x))) s) (hok : ok = true) :
    WritesOnly i r.addr [x] := by
  subst hok
  exact writesOnly_of_writeReg r x h

/-- A setter whose operand passes its check reads the register `r`, then writes a payload made from the byte
read at the same address. -/
theorem readsThenWrites_of_setter (r : Reg) {p : Byte → Payload} (haddr : ∀ b, (p b).addr = r.addr)
    (h : ∀ s, exec i s = perform (done (require ok ((readReg r).andThen fun b => memWrite (p b)))) s)
    (hok : ok = true) : ReadsThenWrites i r.addr fun b => some (p b).data := by
  subst hok
  exact readsThenWrites_of r h fun b => .inr ⟨p b, rfl, haddr b, rfl⟩

end

section

variable {v : Byte}

theorem readsThenWrites_setSeconds (h : v.toNat ≤ 59) :
    ReadsThenWrites (.setSeconds v) 0x00 fun r => some [secondsByte r v] :=
  readsThenWrites_of_setter .seconds (p := fun r => Reg.seconds.payload (secondsByte r v))
    (fun _ => rfl) (fun _ => rfl) (decide_eq_true h)

theorem writesOnly_setMinutes (h : v.toNat ≤ 59) : WritesOnly (.setMinutes v) 0x01 [bcdEncode v] :=
  writesOnly_of_setter .minutes (fun _ => rfl) (decide_eq_true h)

theorem writesOnly_setWeekday (h : 1 ≤ v.toNat ∧ v.toNat ≤ 7) : WritesOnly (.setWeekday v) 0x03 [v] :=
  writesOnly_of_setter .weekday (fun _ => rfl) (decide_eq_true h)

theorem writesOnly_setDay (h : 1 ≤ v.toNat ∧ v.toNat ≤ 31) :
    WritesOnly (.setDay v) 0x04 [bcdEncode v] :=
  writesOnly_of_setter .day (fun _ => rfl) (decide_eq_true h)

theorem writesOnly_setMonth (h : 1 ≤ v.toNat ∧ v.toNat ≤ 12) :
    WritesOnly (.setMonth v) 0x05 [bcdEncode v] :=
  writesOnly_of_setter .month (fun _ => rfl) (decide_eq_true h)

end

theorem writesOnly_setYear {v : Half} (h : 2000 ≤ v.toNat ∧ v.toNat ≤ 2099) :
    WritesOnly (.setYear v) 0x06 [yearByte v] :=
  writesOnly_of_setter .year (fun _ => rfl) (decide_eq_true h)

theorem rejects_setHours {hour : Hour} (h : ¬ validHour hour) : Rejects (.setHours hour) :=
  rejects_of fun s => by rw [exec_setHours, hoursEncode_of_not_valid h]; rfl

theorem spelledBy_setYear (lo hi : Byte) : SpelledBy (.setYear (halfOfBytes lo hi)) [0x26, lo, hi] := by
  have h : SpelledBy (.setYear (halfOfBytes lo hi)) (0x26 :: halfBytes (halfOfBytes lo hi)) :=
    spelledBy_encode rfl
  rwa [halfBytes, lowByte_halfOfBytes, highByte_halfOfBytes] at h

/-- Settles O12: the byte written is `secondsByte`, the halt bit as read above the BCD seconds. -/
theorem setSecondsKeepsHaltBit : Obligations.SetSecondsKeepsHaltBit := by
  refine fun v => ⟨spelledBy_encode rfl, fun hv => ⟨_, readsThenWrites_setSeconds hv, fun r => ?_⟩,
    fun hv => rejects_of_setter (fun _ => rfl) (decide_eq_false (by omega))⟩
  rw [toNat_secondsByte r hv, bcdEncode_toNat_of_le (by omega)]

/-- Settles O13: each range check decides between the one write and the rejection. -/
theorem setMinutesWeekdayDayMonth : Obligations.SetMinutesWeekdayDayMonth := by
  refine fun v => ⟨spelledBy_encode rfl, spelledBy_encode rfl, spelledBy_encode rfl,
    spelledBy_encode rfl, ?minutes, ?_, writesOnly_setWeekday, ?_, ?day, ?_, ?month, ?_⟩
  case minutes => exact fun hv => ⟨_, bcdEncode_toNat_of_le (by omega), writesOnly_setMinutes hv⟩
  case day => exact fun hv => ⟨_, bcdEncode_toNat_of_le (by omega), writesOnly_setDay hv⟩
  case month => exact fun hv => ⟨_, bcdEncode_toNat_of_le (by omega), writesOnly_setMonth hv⟩
  all_goals exact fun hv => rejects_of_setter (fun _ => rfl) (decide_eq_false (by omega))

/-- Settles O14: `hours_encode` gives a valid hour its byte and rejects the others. -/
theorem setHoursWritesVariant : Obligations.SetHoursWritesVariant :=
  ⟨fun _ => ⟨spelledBy_encode rfl, spelledBy_encode rfl, spelledBy_encode rfl⟩,
    fun _ hv => ⟨_, encodesHour_hourByte hv, writesOnly_setHours hv⟩, fun _ => rejects_setHours⟩

/-- Settles O15: in range the byte written is `yearByte`; the frame holds the year's low byte first. -/
theorem setYearWritesOffset : Obligations.SetYearWritesOffset :=
  ⟨spelledBy_setYear, fun _ =>
    ⟨fun hv => ⟨_, yearByte_toNat (decide_eq_true hv), writesOnly_setYear hv⟩,
      fun hv => rejects_of_setter (fun _ => rfl) (decide_eq_false (by omega))⟩⟩

end Sys2Proof.Machine

namespace Sys2Proof.Machine

/-! ## The combined accessor against the single ones (R146, R160, R161) -/

theorem readsThenWrites_setDatetime {dt : DateTime} (h : inRanges dt) :
    ReadsThenWrites (.setDatetime dt) 0x00 fun r => some (dtPayload r dt) :=
  readsThenWrites_of_setter .seconds (p := fun r => dateTimePayload r dt) (fun _ => rfl) (fun _ => rfl)
    ((dtRangesOk_iff_inRanges dt).mpr h)

/-- What `get_datetime` answers to the bytes read: the decoded value if it passes the calendar check
(R160). -/
def dateTimeResponse (p : Params) (bs : List Byte) : Response :=
  if calSane p.calSane (dtDecode bs) = true then .ok (.dateTime (dtDecode bs)) else .error .invalidInputData

section

variable {p : Params} {bs : List Byte}

theorem dateTimeResponse_of_sane (h : calSane p.calSane (dtDecode bs) = true) :
    dateTimeResponse p bs = .ok (.dateTime (dtDecode bs)) := if_pos h

theorem dateTimeResponse_of_not_sane (h : calSane p.calSane (dtDecode bs) = false) :
    dateTimeResponse p bs = .error .invalidInputData := if_neg (by simp [h])

theorem eq_dtDecode_of_dateTimeResponse {dt : DateTime}
    (h : dateTimeResponse p bs = .ok (.dateTime dt)) : dt = dtDecode bs := by
  cases hc : calSane p.calSane (dtDecode bs) with
  | true =>
    rw [dateTimeResponse_of_sane hc] at h
    cases h
    rfl
  | false =>
    rw [dateTimeResponse_of_not_sane hc] at h
    cases h

end

theorem readsOnly_getDatetime : ReadsOnly .getDatetime 0x00 7 dateTimeResponse := by
  refine readsOnly_of dateTimeSpan
    (k := fun p bs => require (calSane p.calSane (dtDecode bs)) (ret (.dateTime (dtDecode bs))))
    (fun _ => rfl) fun p bs => ?_
  cases hc : calSane p.calSane (dtDecode bs) with
  | true => exact .inl ⟨_, dateTimeResponse_of_sane hc, rfl⟩
  | false => exact .inr ⟨_, dateTimeResponse_of_not_sane hc, rfl⟩

/-- Settles O16: each byte of `dtPayload` is the one its single setter writes, and `dtDecode` decodes each
byte as its single getter does. -/
theorem combinedAndSingleAccessorsAgree : Obligations.CombinedAndSingleAccessorsAgree := by
  refine ⟨fun dt hdt => ⟨fun r => dtPayload r dt, readsThenWrites_setDatetime hdt, fun r => ?setters⟩,
    ?getters⟩
  case setters =>
    obtain ⟨hyear, hmonth, hday, hweekday, hhour, hminute, hsecond⟩ := hdt
    exact ⟨_, _, _, _, _, _, _, rfl,
      ⟨fun q => secondsByte q dt.second, readsThenWrites_setSeconds hsecond, rfl⟩,
      writesOnly_setMinutes hminute, writesOnly_setHours hhour, writesOnly_setWeekday hweekday,
      writesOnly_setDay hday, writesOnly_setMonth hmonth, writesOnly_setYear hyear⟩
  case getters =>
    exact ⟨_, _, _, _, _, _, _, queries_getSeconds, queries_getMinutes, queries_getHours,
      queries_getWeekday, queries_getDay, queries_getMonth, queries_getYear, dateTimeResponse,
      readsOnly_getDatetime, fun _ _ _ _ _ _ _ _ _ => eq_dtDecode_of_dateTimeResponse⟩

end Sys2Proof.Machine

namespace Sys2Proof.Machine

/-! ## The combined accessor in full (R160 to R164) -/

/-- Settles O17: the response is `dateTimeResponse`, whose check is on the value that `dtDecode` gives. -/
theorem getDatetimeReadsDecodesChecks : Obligations.GetDatetimeReadsDecodesChecks :=
  ⟨spelledBy_encode rfl, dateTimeResponse, readsOnly_getDatetime, fun _ bs hlen =>
    ⟨dtDecode bs, decodesDateTime_dtDecode hlen, dateTimeResponse_of_sane, dateTimeResponse_of_not_sane⟩⟩

/-- The frame of `set_datetime`: the year's low byte first, the hour as its tag and its number (R86). -/
theorem spelledBy_setDatetime {dt : DateTime} {lo hi : Byte} (hyear : dt.year = halfOfBytes lo hi) :
    SpelledBy (.setDatetime dt) [0x27, lo, hi, dt.month, dt.day, dt.weekday, hourTag dt.hour,
      hourNumber dt.hour, dt.minute, dt.second] := by
  have h : SpelledBy (.setDatetime dt) (0x27 :: dateTimeBytes dt) := spelledBy_encode rfl
  rwa [dateTimeBytes, halfBytes, hyear, lowByte_halfOfBytes, highByte_halfOfBytes] at h

theorem rejects_setDatetime {dt : DateTime} (h : ¬ inRanges dt) : Rejects (.setDatetime dt) :=
  rejects_of_setter (fun _ => rfl)
    (Bool.eq_false_iff.mpr fun hok => h ((dtRangesOk_iff_inRanges dt).mp hok))

/-- Settles O18: in range the bytes written are `dtPayload` of the byte read, out of range it rejects; the
frame is read off for each variant of the hour. -/
theorem setDatetimeWritesSevenBytes : Obligations.SetDatetimeWritesSevenBytes := by
  refine ⟨fun lo hi h dt hyear => ?frames,
    fun dt hdt => ⟨_, readsThenWrites_setDatetime hdt, fun r => imagesDateTime_dtPayload r hdt⟩,
    fun dt => rejects_setDatetime⟩
  case frames =>
    have hframe := spelledBy_setDatetime hyear
    refine ⟨?_, ?_, ?_⟩ <;> exact fun hhour => by rwa [hhour] at hframe

/-- Settles O20: `imagesDateTime_dtPayload` for the image, `dtDecode_dtPayload` for the way back. -/
theorem dateTimeImageRoundTrip : Obligations.DateTimeImageRoundTrip :=
  ⟨fun r0 dt hdt => ⟨imagesDateTime_dtPayload r0 hdt,
    dtDecode_dtPayload r0 ((dtRangesOk_iff_inRanges dt).mpr hdt)⟩, fun _ => decodesDateTime_dtDecode⟩

theorem inRanges_of_calSane {c : CalCheck} {dt : DateTime} (h : calSane c dt = true) : inRanges dt :=
  (dtRangesOk_iff_inRanges dt).mp (dtRangesOk_of_calSane h)

theorem calSane_gregorian_iff (dt : DateTime) : calSane .gregorian dt = true ↔
    inRanges dt ∧ dt.day.toNat ≤ daysInMonth dt.year.toNat dt.month.toNat := by
  rw [calSane, Bool.and_eq_true, dtRangesOk_iff_inRanges, decide_eq_true_iff]

/-- `days_in_month` (R162) by cases on the month: February, the four short months, the others. -/
theorem daysInMonth_eq (y m : Nat) : daysInMonth y m =
    if m = 2 then (if y % 4 = 0 then 29 else 28)
    else if m = 4 ∨ m = 6 ∨ m = 9 ∨ m = 11 then 30 else 31 := by
  unfold daysInMonth
  split
  case h_6 h2 h4 h6 h9 h11 => rw [if_neg h2, if_neg fun hm => hm.elim h4 (·.elim h6 (·.elim h9 h11))]
  all_goals rfl

/-- Settles O21: every kind of check has `dtRangesOk` as a conjunct; the Gregorian one adds
`daysInMonth`. -/
theorem calendarChecks : Obligations.CalendarChecks := by
  refine ⟨fun c dt => inRanges_of_calSane, dtRangesOk_iff_inRanges, fun dt => ?_⟩
  rw [calSane_gregorian_iff, daysInMonth_eq]

/-- The span read after an answered read and write of it, under a frozen timekeeper, is what was written. -/
theorem ReadsThenWrites.then_readsOnly {i j : Instr} {a n : Nat} {p : Byte → List Byte}
    {f : Params → List Byte → Response} (hw : ReadsThenWrites i a fun r => some (p r))
    (hr : ReadsOnly j a n f) (hlen : ∀ r, (p r).length = n) {s : State}
    (hfrozen : s.params.timekeeper = .frozen) (h0 : (s.turnAt 0).answer = .ok)
    (h1 : (s.turnAt 1).answer = .ok) (h2 : (s.turnAt 2).answer = .ok) :
    ∃ r t u, exec i s = .next t ∧ exec j t = .next u ∧
      u.output = s.output ++ [.ok .unit, f s.params (p r)] := by
  obtain ⟨-, hwrite, -, -⟩ := hw s _ rfl
  obtain ⟨t, hexec, hout, -, hmem, hparams, -, -, hturns, hdraws⟩ := hwrite _ h0 rfl h1
  have hbytes : p ((s.busMem 0).get a) = (t.busMem 0).readSpan a n := by
    rw [State.busMem_frozen t (hparams ▸ hfrozen), ← hlen, readSpan_of_writtenOver hmem]
  have hanswer : (t.turnAt 0).answer = .ok := by rwa [State.turnAt_of_drop hturns hdraws]
  obtain ⟨u, hexec', hout', -⟩ := (hr t).1 hanswer _ hbytes
  exact ⟨(s.busMem 0).get a, t, u, hexec, hexec', by simp [hout', hout, hparams]⟩

/-- Settles O22: `get_datetime` reads the image that `set_datetime` wrote, which decodes to the date-time
set. -/
theorem setThenGetDatetime : Obligations.SetThenGetDatetime := by
  intro s dt hdt hsane hfrozen h0 h1 h2
  obtain ⟨r, t, u, hset, hget, hout⟩ := (readsThenWrites_setDatetime hdt).then_readsOnly
    readsOnly_getDatetime (fun _ => rfl) hfrozen h0 h1 h2
  have hback : dtDecode (dtPayload r dt) = dt :=
    dtDecode_dtPayload r ((dtRangesOk_iff_inRanges dt).mpr hdt)
  rw [dateTimeResponse_of_sane (hback.symm ▸ hsane), hback] at hout
  exact ⟨t, u, hset, hget, hout⟩

/-- Settles O19: `inRanges` written out. -/
theorem dtRangesOkIsTheSevenRanges : Obligations.DtRangesOkIsTheSevenRanges := by
  intro dt
  rw [dtRangesOk_iff_inRanges, inRanges]
  cases dt.hour <;> rfl

end Sys2Proof.Machine

namespace Sys2Proof.Machine

/-! ## Oscillator control (R170 to R173) -/

section

variable {i : Instr}

/-- An operation that reads a register and writes it back changed only if the byte read calls for it. -/
theorem readsThenWrites_of_regUpdate (r : Reg) (c : Byte → Prop) [DecidablePred c] (f : Byte → Byte)
    (h : ∀ s, exec i s =
      perform (done ((readReg r).andThen fun b => if c b then writeReg r (f b) else ret ())) s) :
    ReadsThenWrites i r.addr fun b => if c b then some [f b] else none := by
  refine readsThenWrites_of r h fun b => ?_
  by_cases hc : c b
  · exact .inr ⟨r.payload (f b), if_pos hc, rfl, if_pos hc⟩
  · exact .inl ⟨if_neg hc, if_neg hc⟩

/-- The helper `set_flag` as a whole operation (R170). -/
theorem readsThenWrites_of_setFlag (a : Reg) (m : Byte)
    (h : ∀ s, exec i s = perform (done (setFlag a m)) s) :
    ReadsThenWrites i a.addr fun r => if r &&& m = 0 then some [r ||| m] else none :=
  readsThenWrites_of_regUpdate a _ _ h

/-- The helper `clear_flag` as a whole operation (R170). -/
theorem readsThenWrites_of_clearFlag (a : Reg) (m : Byte)
    (h : ∀ s, exec i s = perform (done (clearFlag a m)) s) :
    ReadsThenWrites i a.addr fun r => if r &&& m ≠ 0 then some [r &&& ~~~m] else none :=
  readsThenWrites_of_regUpdate a _ _ h

end

theorem queries_running : Queries .running 0x00 fun r => .bool (r &&& maskCH == 0) :=
  queries_of .seconds fun _ => rfl

theorem readsThenWrites_setRunning : ReadsThenWrites .setRunning 0x00 fun r =>
    if r &&& maskCH ≠ 0 then some [r &&& ~~~maskCH] else none :=
  readsThenWrites_of_clearFlag .seconds maskCH fun _ => rfl

theorem readsThenWrites_halt : ReadsThenWrites .halt 0x00 fun r =>
    if r &&& maskCH = 0 then some [r ||| maskCH] else none :=
  readsThenWrites_of_setFlag .seconds maskCH fun _ => rfl

section

variable {r : Byte}

theorem and_maskCH_eq_zero_iff : r &&& maskCH = 0 ↔ r.toNat < 128 := by
  have hmask : (r &&& maskCH).toNat = r.toNat / 128 * 128 := toNat_and_80 r
  have hzero : (0 : Byte).toNat = 0 := rfl
  rw [← BitVec.toNat_inj, hmask, hzero]
  omega

theorem and_maskCH_ne_zero_iff : r &&& maskCH ≠ 0 ↔ 128 ≤ r.toNat :=
  and_maskCH_eq_zero_iff.not.trans not_lt

theorem toNat_or_maskCH (h : r.toNat < 128) : (r ||| maskCH).toNat = r.toNat + 128 := by
  rw [BitVec.or_comm, Nat.add_comm]
  exact toNat_haltBit_or maskCH r h

theorem toNat_and_not_maskCH (h : 128 ≤ r.toNat) : (r &&& ~~~maskCH).toNat = r.toNat - 128 := by
  have hmask : (r &&& ~~~maskCH).toNat = r.toNat % 128 := toNat_and_7F r
  have := r.isLt
  omega

end

/-- Settles O24: `set_running` is `clear_flag` and `halt` is `set_flag` of the halt bit, whose weight in the
byte is 128. -/
theorem setRunningAndHaltChangeHaltBit : Obligations.SetRunningAndHaltChangeHaltBit := by
  refine ⟨spelledBy_encode rfl, spelledBy_encode rfl,
    ⟨_, readsThenWrites_setRunning, fun r => ⟨fun hclear => ?_, fun hset => ?_⟩⟩,
    ⟨_, readsThenWrites_halt, fun r => ⟨fun hset => ?_, fun hclear => ?_⟩⟩⟩
  · exact if_neg (not_not.mpr (and_maskCH_eq_zero_iff.mpr hclear))
  · exact ⟨_, if_pos (and_maskCH_ne_zero_iff.mpr hset), toNat_and_not_maskCH hset⟩
  · exact if_neg (and_maskCH_ne_zero_iff.mpr hset)
  · exact ⟨_, if_pos (and_maskCH_eq_zero_iff.mpr hclear), toNat_or_maskCH hclear⟩

/-- Settles O23: the answer is whether the halt bit, of weight 128, is clear. -/
theorem runningReadsHaltBit : Obligations.RunningReadsHaltBit :=
  ⟨spelledBy_encode rfl, _, queries_running, fun _ => beq_iff_eq.trans and_maskCH_eq_zero_iff⟩

end Sys2Proof.Machine

namespace Sys2Proof.Machine

/-! ## Square-wave output control (R180 to R188) -/

section

variable {r m : Byte}

/-- Bits that are clear in the byte are added when they are set. -/
theorem toNat_or_of_and_eq_zero (h : r &&& m = 0) : (r ||| m).toNat = r.toNat + m.toNat := by
  rw [← BitVec.add_eq_or_of_and_eq_zero r m h, BitVec.toNat_add_of_and_eq_zero h]

/-- The bits outside a mask are what is left when those under it are taken away. -/
theorem toNat_and_not (r m : Byte) : (r &&& ~~~m).toNat = r.toNat - (r &&& m).toNat := by
  have hsplit : r &&& ~~~m ||| r &&& m = r := by
    rw [← BitVec.and_or_distrib_left, BitVec.or_comm, BitVec.or_not_self, BitVec.and_allOnes]
  have hdisjoint : (r &&& ~~~m) &&& (r &&& m) = 0 := by
    ext k; simp +contextual
  have hsum := toNat_or_of_and_eq_zero hdisjoint
  rw [hsplit] at hsum
  omega

/-- A one-bit flag that is not clear is set. -/
theorem and_eq_self_of_flag {k : Nat} (hm : m = BitVec.twoPow 8 k) (h : r &&& m ≠ 0) : r &&& m = m := by
  subst hm
  rw [BitVec.and_twoPow] at h ⊢
  exact if_pos (ite_ne_right_iff.mp h).1

end

/-! ### The flag helpers by the number of the byte -/

section

variable {i : Instr} {m : Byte} {isSet isClear : Byte → Prop}

/-- `set_flag` adds the weight of the flag where it is clear, and writes nothing where it is set (R170). -/
theorem setFlag_adds_weight (a : Reg) (h : ∀ s, exec i s = perform (done (setFlag a m)) s)
    (hset : ∀ r, isSet r → r &&& m ≠ 0) (hclear : ∀ r, isClear r → r &&& m = 0) :
    ∃ f : Byte → Option (List Byte), ReadsThenWrites i a.addr f ∧ ∀ r,
      (isSet r → f r = none) ∧
      (isClear r → ∃ x : Byte, f r = some [x] ∧ x.toNat = r.toNat + m.toNat) :=
  ⟨_, readsThenWrites_of_setFlag a m h, fun r => ⟨fun hr => if_neg (hset r hr),
    fun hr => ⟨_, if_pos (hclear r hr), toNat_or_of_and_eq_zero (hclear r hr)⟩⟩⟩

/-- `clear_flag` takes the weight of a one-bit flag away where it is set, and writes nothing where it is
clear (R170). -/
theorem clearFlag_subtracts_weight (a : Reg) {k : Nat} (hm : m = BitVec.twoPow 8 k)
    (h : ∀ s, exec i s = perform (done (clearFlag a m)) s)
    (hset : ∀ r, isSet r → r &&& m ≠ 0) (hclear : ∀ r, isClear r → r &&& m = 0) :
    ∃ f : Byte → Option (List Byte), ReadsThenWrites i a.addr f ∧ ∀ r,
      (isClear r → f r = none) ∧
      (isSet r → ∃ x : Byte, f r = some [x] ∧ x.toNat = r.toNat - m.toNat) := by
  refine ⟨_, readsThenWrites_of_clearFlag a m h, fun r => ⟨fun hr => if_neg (not_not.mpr (hclear r hr)),
    fun hr => ⟨_, if_pos (hset r hr), ?_⟩⟩⟩
  rw [toNat_and_not, and_eq_self_of_flag hm (hset r hr)]

end

/-! ### The fields of the register by the number of the byte (R32) -/

section

variable {r : Byte} {rate : Rate}

theorem and_maskSQWE_eq_zero_iff : r &&& maskSQWE = 0 ↔ r.toNat / 16 % 2 = 0 := by
  have hmask : (r &&& maskSQWE).toNat = r.toNat / 16 % 2 * 16 := by
    have hbit := Nat.and_two_pow r.toNat 4
    rw [Nat.toNat_testBit] at hbit
    rw [BitVec.toNat_and]; exact hbit
  have hzero : (0 : Byte).toNat = 0 := rfl
  rw [← BitVec.toNat_inj, hmask, hzero]
  omega

theorem and_maskSQWE_ne_zero_iff : r &&& maskSQWE ≠ 0 ↔ r.toNat / 16 % 2 = 1 :=
  and_maskSQWE_eq_zero_iff.not.trans Nat.mod_two_ne_zero

/-- `OUT` is bit 7 of its register, as `CH` is of REG_SECONDS (R25, R32). -/
theorem maskOUT_eq_maskCH : maskOUT = maskCH := rfl

theorem and_maskOUT_eq_zero_iff : r &&& maskOUT = 0 ↔ r.toNat < 128 :=
  maskOUT_eq_maskCH ▸ and_maskCH_eq_zero_iff

theorem and_maskOUT_ne_zero_iff : r &&& maskOUT ≠ 0 ↔ 128 ≤ r.toNat :=
  maskOUT_eq_maskCH ▸ and_maskCH_ne_zero_iff

theorem toNat_and_maskRS (r : Byte) : (r &&& maskRS).toNat = r.toNat % 4 := by
  rw [BitVec.toNat_and]; exact Nat.and_two_pow_sub_one_eq_mod _ 2

theorem and_maskRS_eq_rateCode_iff :
    r &&& maskRS = rateCode rate ↔ r.toNat % 4 = (rateCode rate).toNat := by
  rw [← BitVec.toNat_inj, toNat_and_maskRS]

/-- A byte reads as the rate whose code its selector holds (R187). -/
theorem rateOf_eq_iff : rateOf r = rate ↔ r.toNat % 4 = (rateCode rate).toNat := by
  have hinj : Function.Injective rateCode := Function.LeftInverse.injective rateOf_rateCode
  rw [← hinj.eq_iff, rateCode_rateOf, and_maskRS_eq_rateCode_iff]

/-- A code has no bit outside the selector, so the two parts of the byte written do not overlap (R186). -/
theorem toNat_withRate (r : Byte) (rate : Rate) :
    (withRate r rate).toNat = r.toNat / 4 * 4 + (rateCode rate).toNat := by
  have hdisjoint : (r &&& ~~~maskRS) &&& rateCode rate = 0 := by
    have hcode : ~~~maskRS &&& rateCode rate = 0 := by cases rate <;> rfl
    rw [BitVec.and_assoc, hcode]
    exact BitVec.and_zero
  rw [withRate, toNat_or_of_and_eq_zero hdisjoint, toNat_and_not, toNat_and_maskRS]
  omega

end

/-- Settles O27: `enable` is `set_flag` and `disable` is `clear_flag` of bit 4, whose weight is 16. -/
theorem enableAndDisableChangeEnableBit : Obligations.EnableAndDisableChangeEnableBit :=
  ⟨spelledBy_encode rfl, spelledBy_encode rfl,
    setFlag_adds_weight .sqw (m := maskSQWE) (fun _ => rfl)
      (fun _ => and_maskSQWE_ne_zero_iff.mpr) (fun _ => and_maskSQWE_eq_zero_iff.mpr),
    clearFlag_subtracts_weight .sqw (m := maskSQWE) (k := 4) rfl (fun _ => rfl)
      (fun _ => and_maskSQWE_ne_zero_iff.mpr) (fun _ => and_maskSQWE_eq_zero_iff.mpr)⟩

/-- Settles O28: with a set bit for `High` (decision D13), the level high is `set_flag` and low is `clear_flag`
of bit 7, whose weight is 128. -/
theorem setLevelChangesLevelBit : Obligations.SetLevelChangesLevelBit :=
  ⟨spelledBy_encode rfl, spelledBy_encode rfl,
    setFlag_adds_weight .sqw (m := maskOUT) (fun _ => rfl)
      (fun _ => and_maskOUT_ne_zero_iff.mpr) (fun _ => and_maskOUT_eq_zero_iff.mpr),
    clearFlag_subtracts_weight .sqw (m := maskOUT) (k := 7) rfl (fun _ => rfl)
      (fun _ => and_maskOUT_ne_zero_iff.mpr) (fun _ => and_maskOUT_eq_zero_iff.mpr)⟩

theorem readsThenWrites_setRate (rate : Rate) :
    ReadsThenWrites (.setSquareWaveOutputRate rate) 0x07 fun r =>
      if r &&& maskRS ≠ rateCode rate then some [withRate r rate] else none :=
  readsThenWrites_of_regUpdate .sqw _ _ fun _ => rfl

/-- Settles O29: the operand's code is `rateCode`; the selector is compared with it, and `withRate` is
written where they differ. -/
theorem setRateReplacesSelector : Obligations.SetRateReplacesSelector := by
  intro rate c hcode
  obtain rfl : c = rateCode rate := by
    rcases hcode with ⟨rfl, rfl⟩ | ⟨rfl, rfl⟩ | ⟨rfl, rfl⟩ | ⟨rfl, rfl⟩ <;> rfl
  refine ⟨spelledBy_encode rfl, _, readsThenWrites_setRate rate, fun r =>
    ⟨fun hmatch => ?_, fun hdiffer => ?_⟩⟩
  · exact if_neg (not_not.mpr (and_maskRS_eq_rateCode_iff.mpr hmatch))
  · exact ⟨_, if_pos (and_maskRS_eq_rateCode_iff.not.mpr hdiffer), toNat_withRate r rate⟩

theorem queries_squareWaveOutputEnabled :
    Queries .squareWaveOutputEnabled 0x07 fun r => .bool (r &&& maskSQWE != 0) :=
  queries_of .sqw fun _ => rfl

theorem queries_squareWaveOutputLevel : Queries .squareWaveOutputLevel 0x07 fun r => .level (levelOf r) :=
  queries_of .sqw fun _ => rfl

theorem queries_squareWaveOutputRate : Queries .squareWaveOutputRate 0x07 fun r => .rate (rateOf r) :=
  queries_of .sqw fun _ => rfl

/-- Settles O25: the flag answered is whether bit 4 is not clear, and the rate is the one whose code is the
selector. -/
theorem squareWaveEnabledAndRateQueries : Obligations.SquareWaveEnabledAndRateQueries := by
  refine ⟨spelledBy_encode rfl, spelledBy_encode rfl,
    ⟨_, queries_squareWaveOutputEnabled, fun _ => bne_iff_ne.trans and_maskSQWE_ne_zero_iff⟩,
    rateOf, queries_squareWaveOutputRate, fun r => ⟨?_, ?_, ?_, ?_⟩⟩
  all_goals exact fun hcode => rateOf_eq_iff.mpr hcode

/-- Settles O26: `level_of` decides by bit 7, of weight 128. -/
theorem squareWaveLevelQuery : Obligations.SquareWaveLevelQuery :=
  ⟨spelledBy_encode rfl, levelOf, queries_squareWaveOutputLevel, fun _ =>
    ⟨fun hset => if_pos (and_maskOUT_ne_zero_iff.mpr hset),
      fun hclear => if_neg (not_not.mpr (and_maskOUT_eq_zero_iff.mpr hclear))⟩⟩

/-- Settles O30: the codes are those of `rateCode`, which `rateOf` and `rateOfCode` undo; the code of the rate
read is the selector. -/
theorem rateCodesAreABijection : Obligations.RateCodesAreABijection := by
  refine ⟨rfl, rfl, rfl, rfl, fun rate => ⟨rateOf_rateCode rate, rateOfCode_rateCode rate⟩, fun r => ?_⟩
  rw [rateCode_rateOf, toNat_and_maskRS]

end Sys2Proof.Machine

namespace Sys2Proof.Machine

/-! ## The RAM window (R200 to R202) -/

section

variable {offset n : Nat}

theorem ramCheck_eq_empty (h : n = 0) : ramCheck offset n = .empty h := dif_pos h

theorem ramCheck_eq_invalid (h : 1 ≤ n ∧ (offset ≥ ramLen ∨ offset + n > ramLen)) :
    ramCheck offset n = .invalid h :=
  (dif_neg (Nat.ne_zero_of_lt h.1)).trans (dif_pos h.2)

theorem ramCheck_eq_span (h : 1 ≤ n ∧ offset + n ≤ ramLen) : ramCheck offset n = .span h :=
  (dif_neg (Nat.ne_zero_of_lt h.1)).trans (dif_neg (by omega))

end

/-- Settles O31: one equation of `ramCheck` for each outcome. -/
theorem ramCheckOutcomes : Obligations.RamCheckOutcomes := fun _ _ =>
  ⟨fun h0 => ⟨h0, ramCheck_eq_empty h0⟩,
    fun h0 hout => ⟨_, ramCheck_eq_invalid ⟨Nat.one_le_iff_ne_zero.mpr h0, hout⟩⟩,
    fun h0 _ hin => ⟨_, ramCheck_eq_span ⟨Nat.one_le_iff_ne_zero.mpr h0, hin⟩⟩⟩

/-! ### The two operations by the outcome of the check -/

section

variable {offset n : Byte}

theorem answers_readRam (h : n.toNat = 0) : Answers (.readRam offset n) (.bytes []) :=
  answers_of fun _ => by simp only [exec, execReadRam, ramCheck_eq_empty h]

theorem rejects_readRam (h : 1 ≤ n.toNat ∧ (offset.toNat ≥ ramLen ∨ offset.toNat + n.toNat > ramLen)) :
    Rejects (.readRam offset n) :=
  rejects_of fun _ => by simp only [exec, execReadRam, ramCheck_eq_invalid h]

theorem readsOnly_readRam (h : 1 ≤ n.toNat ∧ offset.toNat + n.toNat ≤ ramLen) :
    ReadsOnly (.readRam offset n) (ramBase + offset.toNat) n.toNat fun _ bs => .ok (.bytes bs) :=
  readsOnly_of (ramSpan h) (fun _ => by simp only [exec, execReadRam, ramCheck_eq_span h])
    fun _ bs => .inl ⟨.bytes bs, rfl, rfl⟩

variable {d : List Byte}

theorem spelledBy_writeRam (hlen : d.length = n.toNat) :
    SpelledBy (.writeRam offset d) ([0x51, offset, n] ++ d) := by
  have hwf : (Instr.writeRam offset d).wellFormed = true :=
    Instr.wellFormed_writeRam_iff.mpr (by omega)
  have hframe : SpelledBy (.writeRam offset d) (0x51 :: offset :: BitVec.ofNat 8 d.length :: d) :=
    spelledBy_encode hwf
  rwa [hlen, BitVec.ofNat_toNat, BitVec.setWidth_eq] at hframe

theorem answers_writeRam (h : d.length = 0) : Answers (.writeRam offset d) .unit :=
  answers_of fun _ => by simp only [exec, execWriteRam, ramCheck_eq_empty h]

theorem rejects_writeRam (h : 1 ≤ d.length ∧ (offset.toNat ≥ ramLen ∨ offset.toNat + d.length > ramLen)) :
    Rejects (.writeRam offset d) :=
  rejects_of fun _ => by simp only [exec, execWriteRam, ramCheck_eq_invalid h]

theorem writesOnly_writeRam (h : 1 ≤ d.length ∧ offset.toNat + d.length ≤ ramLen) :
    WritesOnly (.writeRam offset d) (ramBase + offset.toNat) d :=
  writesOnly_of (ramPayload d h) fun _ => by simp only [exec, execWriteRam, ramCheck_eq_span h]

end

/-- Settles O32: `ram_check` decides between no bytes, the rejection and the one read. -/
theorem readRamReadsExactlyTheSpan : Obligations.ReadRamReadsExactlyTheSpan := fun _ _ =>
  ⟨spelledBy_encode rfl, answers_readRam, fun h1 hout => rejects_readRam ⟨h1, hout⟩,
    fun h1 hin => readsOnly_readRam ⟨h1, hin⟩⟩

/-- Settles O33: `ram_check` of the buffer's length, which is the frame's `n`, decides between nothing, the
rejection and the one write. -/
theorem writeRamWritesWholeOrNothing : Obligations.WriteRamWritesWholeOrNothing := by
  intro offset n d hlen
  refine ⟨spelledBy_writeRam hlen, ?_⟩
  rw [← hlen]
  exact ⟨answers_writeRam, fun h1 hout => rejects_writeRam ⟨h1, hout⟩,
    fun h1 hin => writesOnly_writeRam ⟨h1, hin⟩⟩

/-! ### Reading back what was written -/

/-- The timekeeper's act changes neither REG_SQW nor the RAM window (R64). -/
theorem Memory.get_tick_of_le (m : Memory) (k : Timekeeper) (t : Option Tick) {a : Nat} (ha : 0x07 ≤ a) :
    (m.tick k t).get a = m.get a := by
  obtain ⟨-, habove⟩ := timekeeperKeeps_tick m k t
  exact habove a ha

theorem State.get_busMem_of_le (s : State) (k : Nat) {a : Nat} (ha : 0x07 ≤ a) :
    (s.busMem k).get a = s.mem.get a := by
  induction k with
  | zero => exact Memory.get_tick_of_le _ _ _ ha
  | succ k ih => exact (Memory.get_tick_of_le _ _ _ ha).trans ih

theorem State.readSpan_busMem_of_le (s : State) (k n : Nat) {a : Nat} (ha : 0x07 ≤ a) :
    (s.busMem k).readSpan a n = s.mem.readSpan a n :=
  Memory.readSpan_congr a n fun _ hx _ => s.get_busMem_of_le k (ha.trans hx)

/-- The span read after an answered write of it, above the registers that a timekeeper may change, is what
was written. -/
theorem WritesOnly.then_readsOnly {i j : Instr} {a n : Nat} {d : List Byte}
    {f : Params → List Byte → Response} (hw : WritesOnly i a d) (hr : ReadsOnly j a n f)
    (hlen : d.length = n) (ha : 0x07 ≤ a) {s : State} (h0 : (s.turnAt 0).answer = .ok)
    (h1 : (s.turnAt 1).answer = .ok) :
    ∃ t u, exec i s = .next t ∧ exec j t = .next u ∧ u.output = s.output ++ [.ok .unit, f s.params d] := by
  obtain ⟨t, hexec, hout, -, hmem, hparams, -, -, hturns, hdraws⟩ := (hw s).1 h0
  have hbytes : d = (t.busMem 0).readSpan a n := by
    rw [State.readSpan_busMem_of_le t 0 n ha, ← hlen, readSpan_of_writtenOver hmem]
  have hanswer : (t.turnAt 0).answer = .ok := by rwa [State.turnAt_of_drop hturns hdraws]
  obtain ⟨u, hexec', hout', -⟩ := (hr t).1 hanswer d hbytes
  exact ⟨t, u, hexec, hexec', by simp [hout', hout, hparams]⟩

/-- Settles O34: the RAM window lies above the registers that a timekeeper may change. -/
theorem writeThenReadRam : Obligations.WriteThenReadRam := by
  intro s offset n d hlen h1 hin hok0 hok1
  have hwrite : 1 ≤ d.length ∧ offset.toNat + d.length ≤ ramLen := hlen ▸ ⟨h1, hin⟩
  have hbase : 0x07 ≤ ramBase + offset.toNat := Nat.le_add_right_of_le (by decide)
  exact (writesOnly_writeRam hwrite).then_readsOnly (readsOnly_readRam ⟨h1, hin⟩) hlen hbase hok0 hok1

end Sys2Proof.Machine

namespace Sys2Proof.Machine

/-! ## When `InvalidInputData` is answered (R211) -/

section

variable {s t : State} {r r' : Response}

theorem delivered_respond_iff (h : t.output = s.output) : delivered s (t.respond r) r' ↔ r = r' := by
  simp [delivered, h]

theorem not_delivered_of_output_eq (h : t.output = s.output) : ¬ delivered s t r := by
  simp [delivered, h]

theorem dateTimeResponse_eq_invalid_iff {p : Params} {bs : List Byte} :
    dateTimeResponse p bs = .error .invalidInputData ↔ calSane p.calSane (dtDecode bs) = false := by
  cases hc : calSane p.calSane (dtDecode bs) with
  | true => simp [dateTimeResponse_of_sane hc]
  | false => simp [dateTimeResponse_of_not_sane hc]

theorem exec_getDatetime_ok (h : (s.turnAt 0).answer = .ok) :
    exec .getDatetime s =
      .next ((s.begin.record (rdAt s 0x00 7 (.ok ((s.busMem 0).readSpan 0x00 7)))).respond
        (dateTimeResponse s.params ((s.busMem 0).readSpan 0x00 7))) := by
  have hread := Action.andThen_value (memRead_ok dateTimeSpan h)
    (rest := fun bs => require (calSane s.params.calSane (dtDecode bs))
      (ret (Value.dateTime (dtDecode bs))))
  cases hc : calSane s.params.calSane (dtDecode ((s.busMem 0).readSpan 0x00 7)) with
  | true =>
    rw [dateTimeResponse_of_sane hc]
    exact perform_value (hread.trans (by simp [dateTimeSpan, hc, ret_apply]))
  | false =>
    rw [dateTimeResponse_of_not_sane hc]
    exact perform_raised (hread.trans (by simp [dateTimeSpan, hc, raise_apply]))

theorem exec_getDatetime_fail {e : TransportError} (h : (s.turnAt 0).answer = .fail e) :
    exec .getDatetime s =
      .next ((s.begin.record (rdAt s 0x00 7 (.fail e))).respond (.error (.transport e))) :=
  perform_raised (Action.andThen_raised (memRead_fail dateTimeSpan h))

theorem exec_getDatetime_never (h : (s.turnAt 0).answer = .never) :
    exec .getDatetime s = .next s.begin.hang :=
  perform_hung (Action.andThen_hung (memRead_never dateTimeSpan h))

/-- `get_datetime` rejects exactly what an answered read brought and the calendar check refuses (R160). -/
theorem delivered_invalid_getDatetime_iff (h : exec .getDatetime s = .next t) :
    delivered s t (.error .invalidInputData) ↔ (s.turnAt 0).answer = .ok ∧
      calSane s.params.calSane (dtDecode ((s.busMem 0).readSpan 0x00 7)) = false := by
  cases ha : (s.turnAt 0).answer with
  | ok =>
    cases h.symm.trans (exec_getDatetime_ok ha)
    exact (delivered_respond_iff rfl).trans
      (dateTimeResponse_eq_invalid_iff.trans (and_iff_right rfl).symm)
  | fail e =>
    cases h.symm.trans (exec_getDatetime_fail ha)
    exact (delivered_respond_iff rfl).trans (iff_of_false nofun nofun)
  | never =>
    cases h.symm.trans (exec_getDatetime_never ha)
    exact iff_of_false (not_delivered_of_output_eq rfl) nofun

/-- What an answered `get_datetime` leaves: its one read in the trace, and no register changed. -/
theorem exec_getDatetime_ok_frame (ha : (s.turnAt 0).answer = .ok)
    (h : exec .getDatetime s = .next t) : t.mem = s.busMem 0 ∧
      issued s t [rdAt s 0x00 7 (.ok ((s.busMem 0).readSpan 0x00 7))] := by
  cases h.symm.trans (exec_getDatetime_ok ha)
  exact ⟨rfl, rfl⟩

end

section

variable {i : Instr} {s t : State}

/-- A rejected operand leads to a response and to nothing else (R131, R213). -/
theorem Ran.eq_respond_of_rejected (hr : Ran i s t) (h : i.rejected) : ∃ r, t = s.respond r := by
  cases hr with
  | quiet r => exact ⟨r, rfl⟩
  | hung | read | wrote | readHung | readWrote => exact absurd h ‹¬ i.rejected›

/-- Every operation but `get_datetime` answers `InvalidInputData` for a rejected operand alone. -/
theorem Ran.delivered_invalid_iff (hr : Ran i s t) (hi : i ≠ .getDatetime) :
    delivered s t (.error .invalidInputData) ↔ i.rejected := by
  cases hr with
  | quiet r _ hrejected => exact (delivered_respond_iff rfl).trans hrejected.symm
  | hung | readHung => exact iff_of_false (not_delivered_of_output_eq rfl) ‹¬ i.rejected›
  | read _ _ _ r =>
    have hvalid : r = .error .invalidInputData → i = .getDatetime := ‹_›
    exact iff_of_false (fun hd => hi (hvalid ((delivered_respond_iff rfl).mp hd))) ‹¬ i.rejected›
  | wrote _ _ _ r | readWrote _ _ _ _ _ _ r =>
    have hvalid : r ≠ .error .invalidInputData := ‹_›
    exact iff_of_false (fun hd => hvalid ((delivered_respond_iff rfl).mp hd)) ‹¬ i.rejected›

end

/-- Settles O35: by whether the instruction is `get_datetime`, whose check is on what it read, or one
whose check is on the operand. -/
theorem invalidInputExactlyWhen : Obligations.InvalidInputExactlyWhen := by
  intro i s t hexec
  have hr := ran_of_exec hexec
  refine ⟨?condition, fun hrejected => ?operand, ?calendar⟩
  case condition =>
    by_cases hi : i = .getDatetime
    · subst hi
      rw [delivered_invalid_getDatetime_iff hexec]
      simp [Instr.rejected]
    · simp [hr.delivered_invalid_iff hi, hi]
  case operand =>
    obtain ⟨r, rfl⟩ := hr.eq_respond_of_rejected hrejected
    exact ⟨rfl, rfl, rfl⟩
  case calendar =>
    rintro rfl hd
    obtain ⟨hok, -⟩ := (delivered_invalid_getDatetime_iff hexec).mp hd
    exact exec_getDatetime_ok_frame hok hexec

end Sys2Proof.Machine

namespace Sys2Proof.Machine

/-! ## When a transport error is answered (R212) -/

section

variable {e : TransportError}

theorem Response.failure_eq_some_iff {r : Response} : r.failure = some e ↔ r = .error (.transport e) := by
  rcases r with v | (_ | e') <;> simp [Response.failure]

theorem ReadOutcome.failure_eq_some_iff {o : ReadOutcome} : o.failure = some e ↔ o = .fail e := by
  cases o <;> simp [ReadOutcome.failure]

theorem WriteOutcome.failure_eq_some_iff {o : WriteOutcome} : o.failure = some e ↔ o = .fail e := by
  cases o <;> simp [WriteOutcome.failure]

/-- A response delivered with the verdict `verdict` is the transport error that the verdict names. -/
theorem delivered_transport_iff {s t : State} {r : Response} {verdict : Option TransportError}
    (h : t.output = s.output) (hv : r.failure = verdict) :
    delivered s (t.respond r) (.error (.transport e)) ↔ verdict = some e := by
  rw [delivered_respond_iff h, ← hv, Response.failure_eq_some_iff]

end

section

variable {s : State} {evs : List BusEvent} {first last ev : BusEvent}

/-- The value that the last of the transactions failed with, if there is one and it failed. -/
def lastFailure (evs : List BusEvent) : Option TransportError := evs.getLast?.bind BusEvent.failure

theorem lastFailure_eq_some_iff {e : TransportError} : lastFailure evs = some e ↔
    ∃ before last, evs = before ++ [last] ∧ last.failure = some e := by
  simp only [lastFailure, Option.bind_eq_some_iff, List.getLast?_eq_some_iff]
  constructor
  · rintro ⟨last, ⟨before, hevs⟩, hlast⟩
    exact ⟨before, last, hevs, hlast⟩
  · rintro ⟨before, last, hevs, hlast⟩
    exact ⟨last, ⟨before, hevs⟩, hlast⟩

/-- Each recorded transaction failed with the value that the transport's answer to it carries, if any
(R65, R212). -/
def AnsweredBy (s : State) (evs : List BusEvent) : Prop :=
  ∀ k ev, evs[k]? = some ev → ev.failure = answerFailure (s.turnAt k).answer

theorem answeredBy_nil : AnsweredBy s [] := by simp [AnsweredBy]

theorem answeredBy_singleton (h : ev.failure = answerFailure (s.turnAt 0).answer) :
    AnsweredBy s [ev] := by
  rintro (_ | k) ev' ⟨⟩
  exact h

theorem answeredBy_pair (h0 : first.failure = answerFailure (s.turnAt 0).answer)
    (h1 : last.failure = answerFailure (s.turnAt 1).answer) : AnsweredBy s [first, last] := by
  rintro (_ | _ | k) ev' ⟨⟩
  · exact h0
  · exact h1

/-- Where only the last transaction may have failed, nothing was issued after one that failed. -/
theorem eq_nil_of_failed (h : ∀ ev ∈ evs.dropLast, ev.failure = none) {before after : List BusEvent}
    (hevs : evs = before ++ ev :: after) (hfailed : ev.failure ≠ none) : after = [] := by
  by_contra hafter
  refine hfailed (h ev ?_)
  rw [hevs, List.dropLast_append_of_ne_nil (List.cons_ne_nil _ _), List.dropLast_cons_of_ne_nil hafter]
  simp

end

/-- What the transactions of an operation say of its response: none but the last failed, and the response
is a transport error exactly when the last one failed, with its value (R212). -/
theorem Ran.events_failure {i : Instr} {s t : State} (hr : Ran i s t) : ∃ evs, issued s t evs ∧
    (∀ e, delivered s t (.error (.transport e)) ↔ lastFailure evs = some e) ∧
    (∀ ev ∈ evs.dropLast, ev.failure = none) ∧ AnsweredBy s evs := by
  cases hr with
  | quiet r verdict =>
    exact ⟨[], by simp [issued], fun e => delivered_transport_iff rfl verdict, nofun, answeredBy_nil⟩
  | hung =>
    exact ⟨[], by simp [issued], fun e => iff_of_false (not_delivered_of_output_eq rfl) nofun, nofun,
      answeredBy_nil⟩
  | read addr n o r _ _ verdict answer =>
    exact ⟨[rdAt s addr n o], rfl, fun e => delivered_transport_iff rfl verdict, nofun,
      answeredBy_singleton answer⟩
  | wrote p o m r _ _ _ _ _ _ _ verdict answer =>
    exact ⟨[wrAt s p.addr p.data o], rfl, fun e => delivered_transport_iff rfl verdict, nofun,
      answeredBy_singleton answer⟩
  | readHung addr n bs _ _ first =>
    refine ⟨[rdAt s addr n (.ok bs)], rfl,
      fun e => iff_of_false (not_delivered_of_output_eq rfl) nofun, nofun, answeredBy_singleton ?_⟩
    rw [first]; rfl
  | readWrote addr n bs p o m r _ _ _ _ _ _ _ _ _ verdict first answer =>
    refine ⟨[rdAt s addr n (.ok bs), wrAt s p.addr p.data o], by simp [issued, rdAt, wrAt],
      fun e => delivered_transport_iff rfl verdict, ?_, answeredBy_pair ?_ answer⟩
    · rintro ev (_ | ⟨_, ⟨⟩⟩); rfl
    · rw [first]; rfl

/-- Settles O36: `Ran.events_failure`, with the last failure written out. -/
theorem transportErrorExactlyWhen : Obligations.TransportErrorExactlyWhen := by
  intro i s t hexec
  obtain ⟨evs, hissued, hverdict, hearlier, hanswered⟩ := (ran_of_exec hexec).events_failure
  exact ⟨evs, hissued, fun e => (hverdict e).trans lastFailure_eq_some_iff,
    fun _ _ _ => eq_nil_of_failed hearlier, hanswered⟩

end Sys2Proof.Machine

namespace Sys2Proof.Machine

/-! ## What an error leaves (R213) -/

/-- A transport error comes from the last transaction: a failed read, which changes no register, or a failed
write, alone or after a read that succeeded. -/
theorem Ran.left_by_transport_error {i : Instr} {s t : State} {e : TransportError} (hr : Ran i s t)
    (hd : delivered s t (.error (.transport e))) :
    (∃ a n, t.mem = s.busMem 0 ∧ issued s t [rdAt s a n (.fail e)]) ∨
    (∃ a data before, issued s t (before ++ [wrAt s a data (.fail e)]) ∧
      failedOver s.params.writeFailEffect (s.busMem before.length) a data.length t.mem ∧
      (before = [] ∨ ∃ b n o, before = [rdAt s b n (.ok o)])) := by
  cases hr with
  | quiet r verdict => cases (delivered_transport_iff rfl verdict).mp hd
  | hung | readHung => exact absurd hd (not_delivered_of_output_eq rfl)
  | read addr n o r _ _ verdict =>
    obtain rfl := ReadOutcome.failure_eq_some_iff.mp ((delivered_transport_iff rfl verdict).mp hd)
    exact .inl ⟨addr, n, rfl, rfl⟩
  | wrote p o m r _ _ outside failed _ _ _ verdict =>
    obtain rfl := WriteOutcome.failure_eq_some_iff.mp ((delivered_transport_iff rfl verdict).mp hd)
    exact .inr ⟨p.addr, p.data, [], rfl, ⟨outside, failed nofun⟩, .inl rfl⟩
  | readWrote addr n bs p o m r _ _ _ _ outside failed _ _ _ verdict =>
    obtain rfl := WriteOutcome.failure_eq_some_iff.mp ((delivered_transport_iff rfl verdict).mp hd)
    exact .inr ⟨p.addr, p.data, [rdAt s addr n (.ok bs)], by simp [issued, rdAt, wrAt],
      ⟨outside, failed nofun⟩, .inr ⟨addr, n, bs, rfl⟩⟩

/-- Settles O37: after `InvalidInputData` by the conditions under which it is answered, after a transport
error by the last transaction. -/
theorem stateLeftByAnError : Obligations.StateLeftByAnError := by
  intro i s t hexec
  have hr := ran_of_exec hexec
  obtain ⟨-, hoperand, hcalendar⟩ := invalidInputExactlyWhen i s t hexec
  refine ⟨fun hd => ⟨fun hi => ?_, fun hi => ?_⟩, fun e => hr.left_by_transport_error⟩
  · obtain ⟨htrace, hmem, -⟩ := hoperand ((hr.delivered_invalid_iff hi).mp hd)
    exact ⟨hmem, htrace⟩
  · obtain ⟨hmem, hissued⟩ := hcalendar hi hd
    exact ⟨hmem, _, hissued⟩

end Sys2Proof.Machine

namespace Sys2Proof.Machine

/-! ## The first transaction of an admitted operation (R250) -/

/-- What a first transaction that fails, or is never answered, makes of the whole operation: `m` is the
register space the failure leaves, `ev e` the event of the failure with `e`. -/
theorem completes_or_hangs_of_first {i : Instr} {s : State} {a : Action Value} {m : Memory}
    {ev : TransportError → BusEvent} {mems : Memory → Prop} (h : exec i s = perform a s)
    (hfail : ∀ e, (s.turnAt 0).answer = .fail e →
      a s = (.raised (.transport e), (s.begin.withMem m).record (ev e)))
    (hmems : mems m) (hnever : (s.turnAt 0).answer = .never → a s = (.hung, s.begin)) :
    (∀ e, (s.turnAt 0).answer = .fail e → Completes i s 1 [ev e] (.error (.transport e)) mems) ∧
      ((s.turnAt 0).answer = .never → Hangs i s 1 [] (sameRegs (s.busMem 0))) := by
  refine ⟨fun e ha => ⟨_, h.trans (perform_raised (hfail e ha)), ?_⟩,
    fun ha => ⟨_, h.trans (perform_hung (hnever ha)), ?_⟩⟩
  · simpa [List.drop_one] using hmems
  · simp [sameRegs, List.drop_one]

/-- Settles O38: by the transaction shape of the instruction; a first transaction that does not succeed
ends every shape that has one. -/
theorem firstTransactionFailsOrHangs : Obligations.FirstTransactionFailsOrHangs := by
  intro i hadmitted
  cases exec_shape i with
  | answers v h _ request =>
    rw [request]
    exact ⟨fun _ => ⟨v, answers_of h⟩, nofun, nofun⟩
  | rejects _ hrejected => exact absurd hrejected hadmitted
  | reads sp k h _ _ request =>
    rw [request]
    refine ⟨nofun, ?_, nofun⟩
    rintro _ _ ⟨⟩ s
    exact completes_or_hangs_of_first (h s) (m := s.busMem 0)
      (fun _ ha => Action.andThen_raised (memRead_fail sp ha)) (fun _ => rfl)
      fun ha => Action.andThen_hung (memRead_never sp ha)
  | writes p h _ request =>
    rw [request]
    refine ⟨nofun, nofun, ?_⟩
    rintro _ _ ⟨⟩ s
    exact completes_or_hangs_of_first (h s) (fun _ ha => done_raised (memWrite_fail p ha))
      (s.memAfterFailedWrite_spec p) fun ha => done_hung (memWrite_never p ha)
  | readsThenWrites r k h _ request =>
    rw [request]
    refine ⟨nofun, ?_, nofun⟩
    rintro _ _ ⟨⟩ s
    exact completes_or_hangs_of_first (h s) (m := s.busMem 0)
      (fun _ ha => done_raised (Action.andThen_raised (readReg_fail r ha))) (fun _ => rfl)
      fun ha => done_hung (Action.andThen_hung (readReg_never r ha))

end Sys2Proof.Machine

namespace Sys2Proof.Machine

/-! ## Whole operations (R245, R252) -/

/-- Every form of next state uses one turn for each traced transaction and delivers one response, or one
turn more for the transaction that is never answered. -/
theorem Ran.response_or_held_port {i : Instr} {s t : State} (hr : Ran i s t) :
    ∃ evs, issued s t evs ∧
      ((∃ r, delivered s t r ∧ t.port = s.port ∧ t.draws = s.draws + evs.length ∧
          t.turns = s.turns.drop evs.length) ∨
        (t.output = s.output ∧ t.port = .hung ∧ (s.turnAt evs.length).answer = .never ∧
          t.draws = s.draws + evs.length + 1 ∧ t.turns = s.turns.drop (evs.length + 1))) := by
  cases hr with
  | quiet r => exact ⟨[], by simp [issued], .inl ⟨r, rfl, rfl, rfl, rfl⟩⟩
  | hung _ answer => exact ⟨[], by simp [issued], .inr ⟨rfl, rfl, answer, rfl, List.drop_one.symm⟩⟩
  | read addr n o r => exact ⟨[rdAt s addr n o], rfl, .inl ⟨r, rfl, rfl, rfl, List.drop_one.symm⟩⟩
  | wrote p o m r =>
    exact ⟨[wrAt s p.addr p.data o], rfl, .inl ⟨r, rfl, rfl, rfl, List.drop_one.symm⟩⟩
  | readHung addr n bs _ _ _ answer =>
    exact ⟨[rdAt s addr n (.ok bs)], rfl,
      .inr ⟨rfl, rfl, answer, rfl, List.drop_one.symm.trans List.drop_tail⟩⟩
  | readWrote addr n bs p o m r =>
    exact ⟨[rdAt s addr n (.ok bs), wrAt s p.addr p.data o], by simp [issued, rdAt, wrAt],
      .inl ⟨r, rfl, rfl, rfl, List.drop_one.symm.trans List.drop_tail⟩⟩

theorem Ran.params_eq {i : Instr} {s t : State} (hr : Ran i s t) : t.params = s.params := by
  cases hr <;> rfl

theorem Ran.input_eq {i : Instr} {s t : State} (hr : Ran i s t) : t.input = s.input := by
  cases hr <;> rfl

/-- Settles O39: `exec` answers a next state, of one of the forms of `Ran`. -/
theorem oneResponseOrHeldPort : Obligations.OneResponseOrHeldPort := by
  intro i s
  obtain ⟨t, hexec, hr⟩ := exec_ran i s
  obtain ⟨evs, hissued, hends⟩ := hr.response_or_held_port
  exact ⟨t, evs, hexec, hissued, hr.params_eq, hr.input_eq, hends⟩

/-- The four sequences of transactions of R245, each of listed frames (R95). -/
theorem Ran.listed_sequence {i : Instr} {s t : State} (hr : Ran i s t) : ∃ evs, issued s t evs ∧
    (∀ e ∈ evs, listedFrame s.params.devAddr e) ∧
    (evs = [] ∨ (∃ a n o, evs = [rdAt s a n o]) ∨ (∃ a data o, evs = [wrAt s a data o]) ∨
      ∃ a n bs b data o, evs = [rdAt s a n (.ok bs), wrAt s b data o]) := by
  cases hr with
  | quiet => exact ⟨[], by simp [issued], nofun, .inl rfl⟩
  | hung => exact ⟨[], by simp [issued], nofun, .inl rfl⟩
  | read addr n o r listed fresh =>
    refine ⟨[rdAt s addr n o], rfl, List.forall_mem_singleton.mpr ?_, .inr (.inl ⟨_, _, _, rfl⟩)⟩
    exact listedFrame_rdAt s listed fun data ho => fresh data ho ▸ Memory.length_readSpan _ addr n
  | wrote p o m r listed =>
    exact ⟨[wrAt s p.addr p.data o], rfl, List.forall_mem_singleton.mpr (listedFrame_wrAt s o listed),
      .inr (.inr (.inl ⟨_, _, _, rfl⟩))⟩
  | readHung addr n bs listed fresh =>
    subst fresh
    exact ⟨_, rfl, List.forall_mem_singleton.mpr (listedFrame_rdAt_readSpan s _ listed),
      .inr (.inl ⟨_, _, _, rfl⟩)⟩
  | readWrote addr n bs p o m r listedRead fresh listed =>
    subst fresh
    refine ⟨[rdAt s addr n (.ok ((s.busMem 0).readSpan addr n)), wrAt s p.addr p.data o],
      by simp [issued, rdAt, wrAt],
      List.forall_mem_cons.mpr ⟨listedFrame_rdAt_readSpan s _ listedRead, ?_⟩,
      .inr (.inr (.inr ⟨_, _, _, _, _, _, rfl⟩))⟩
    exact List.forall_mem_singleton.mpr (listedFrame_wrAt s o listed)

/-- Settles O40: `Ran.listed_sequence` for every next state of `exec`. -/
theorem transactionsAreListedSequences : Obligations.TransactionsAreListedSequences :=
  fun _ _ _ hexec => (ran_of_exec hexec).listed_sequence

end Sys2Proof.Machine

namespace Sys2Proof.Machine

/-! ## Steps without a command, and the launch states (R241, R242, R246) -/

section

variable {s : State}

theorem offer_of_no_input (hport : s.port = .idle) (hin : s.input = []) : offer s = .nothing := by
  simp [offer, hport, hin]

theorem offer_of_hung (hport : s.port = .hung) : offer s = .occupied := by
  simp [offer, hport]

theorem step_of_nothing (h : offer s = .nothing) : step s = .next s := by
  simp [step, h]

theorem step_of_occupied (h : offer s = .occupied) : step s = .fault .transportNeverAnswers := by
  simp [step, h]

end

/-- Settles O49: the idle port offers nothing, the held port is occupied. -/
theorem stepWithoutACommand : Obligations.StepWithoutACommand :=
  ⟨fun _ hport hin => step_of_nothing (offer_of_no_input hport hin),
    fun _ hport => step_of_occupied (offer_of_hung hport)⟩

theorem State.launch_inv (params : Params) {image : List Byte} (turns : List Turn)
    (h : image.length = 64) : (State.launch params image turns).Inv :=
  ⟨Memory.wf_writeSpan (by omega) Memory.wf_nil, nofun⟩

theorem State.get_launch (params : Params) {image : List Byte} (turns : List Turn) {a : Nat}
    (h : a < image.length) : some ((State.launch params image turns).mem.get a) = image[a]? := by
  simpa [State.launch] using Memory.get_writeSpan_add [] 0 a h

/-- Settles O57: the launch state writes the image over an empty register space, and every other field is
the one at reset. -/
theorem launchStates : Obligations.LaunchStates := by
  refine ⟨⟨rfl, rfl, rfl, rfl⟩, fun params image turns hlen => ?_⟩
  exact ⟨State.launch_inv params turns hlen, rfl, rfl, rfl, rfl, rfl,
    fun a ha => State.get_launch params turns (hlen.symm ▸ ha)⟩

end Sys2Proof.Machine
